-- ==== Sys2Proof/Word.lean ====
section
/-! DEFINITION. The word type of FP256 CORE, its limbs and its three readings (spec/00_scope.md R8 to R11). -/

namespace Sys2Proof

/-- A character of the text channels `tin` and `tout` (20_memory.md R35). -/
abbrev Byte := BitVec 8

/-- A word: 256 bits, the content of one register (00_scope.md R9, 10_state.md R16). Bit `k` of the
bit vector is integer bit position `k` of `U` (R8 b); word bit index `i` of the spec is position `255 - i`. -/
abbrev Word := BitVec 256

/-- The content of one limb, LSB-0 (00_scope.md R8 b, R9). -/
abbrev LimbWord := BitVec 64

/-- A word bit index, 0 = sign bit, 255 = least significant fractional bit (00_scope.md R8 a). Typing it as
`Fin 256` is the treatment 40_storage.md R63 asks for: an index outside the word cannot be formed. -/
abbrev BitIdx := Fin 256

/-- A register number, 0 to 7 (10_state.md R15, 30_encoding.md R50). -/
abbrev Reg := Fin 8

/-- The four limbs of a word, most significant first (00_scope.md R9). -/
inductive Limb where
  | left
  | middle
  | right
  | fractional
  deriving DecidableEq, Repr

/-- The zero word (10_state.md R27, 41_construction.md R65). -/
abbrev zeroWord : Word := 0#256

/-- The unsigned reading of a word (00_scope.md R10). -/
abbrev U (W : Word) : Nat := W.toNat

/-- The two's-complement reading of a word (00_scope.md R10). -/
abbrev S (W : Word) : Int := W.toInt

/-- The represented value `S(W) / 2^64`, an exact rational (00_scope.md R10). -/
def V (W : Word) : ℚ := (S W : ℚ) / 2 ^ 64

/-- `word(u)`: the word whose unsigned reading is `u mod 2^256` (00_scope.md R10). -/
abbrev word (u : Int) : Word := BitVec.ofInt 256 u

end Sys2Proof
end

