-- ==== Sys2Proof/Syntax.lean ====
section
/-! DEFINITION. The 25 commands of FP256 CORE (spec/30_encoding.md R52), one constructor for each row of
spec/opcode_table.json, in the table's order, and the five command formats (R44 to R48). -/

namespace Sys2Proof

/-- The five command formats (30_encoding.md R44 to R48). -/
inductive Format where
  | r3
  | r2
  | ri
  | ld
  | rd
  deriving DecidableEq, Repr

/-- A command, without the data that rides beside its word on `din` and `tin` (30_encoding.md R42).
Registers are given as `rd`, then `ra`, then `rb`. The shift amount is the signed number the field `imm16`
stands for (R49); `Instr.wellFormed` holds it to the 16-bit range. -/
inductive Instr where
  /-- FLIP wd, wa: bitwise complement (40_storage.md R64). -/
  | flip (rd ra : Reg)
  /-- LDI32 wd, #v: construct from a signed 32-bit integer (41_construction.md R66). -/
  | ldi32 (rd : Reg)
  /-- LDU32 wd, #v: construct from an unsigned 32-bit integer (41_construction.md R67). -/
  | ldu32 (rd : Reg)
  /-- LDI64 wd, #v: construct from a signed 64-bit integer (41_construction.md R68). -/
  | ldi64 (rd : Reg)
  /-- LDU64 wd, #v: construct from an unsigned 64-bit integer (41_construction.md R69). -/
  | ldu64 (rd : Reg)
  /-- LDF64 wd, #x: construct from a binary64 pattern (41_construction.md R71). -/
  | ldf64 (rd : Reg)
  /-- LDLIT wd, "text": construct from a binary literal (41_construction.md R75). -/
  | ldlit (rd : Reg)
  /-- MOV wd, wa: copy construction (41_construction.md R77). -/
  | mov (rd ra : Reg)
  /-- LDW wd, #u: copy construction from a word the host holds (41_construction.md R78). -/
  | ldw (rd : Reg)
  /-- NEG wd, wa: the source's `invert` (42_negate_increment.md R89). -/
  | neg (rd ra : Reg)
  /-- INCU wd, wa: add 2^-64 (42_negate_increment.md R83). -/
  | incu (rd ra : Reg)
  /-- DECU wd, wa: subtract 2^-64 (42_negate_increment.md R84). -/
  | decu (rd ra : Reg)
  /-- INCI wd, wa: add 1 (42_negate_increment.md R85). -/
  | inci (rd ra : Reg)
  /-- DECI wd, wa: subtract 1 (42_negate_increment.md R86). -/
  | deci (rd ra : Reg)
  /-- ADD wd, wa, wb (43_add_sub.md R96). -/
  | add (rd ra rb : Reg)
  /-- SUB wd, wa, wb (43_add_sub.md R98). -/
  | sub (rd ra rb : Reg)
  /-- MUL wd, wa, wb: `ra` the multiplicand, `rb` the multiplier (44_multiply.md R101, R105). -/
  | mul (rd ra rb : Reg)
  /-- SHL wd, wa, #n: logical left shift, a negative amount shifting right (45_shift.md R113). -/
  | shl (rd ra : Reg) (n : Int)
  /-- SHR wd, wa, #n: arithmetic right shift, a negative amount shifting left (45_shift.md R114). -/
  | shr (rd ra : Reg) (n : Int)
  /-- CVTI32 wa: convert to a signed 32-bit integer (46_conversion.md R119). -/
  | cvti32 (ra : Reg)
  /-- CVTU32 wa: convert to an unsigned 32-bit integer (46_conversion.md R120). -/
  | cvtu32 (ra : Reg)
  /-- CVTI64 wa: convert to a signed 64-bit integer (46_conversion.md R121). -/
  | cvti64 (ra : Reg)
  /-- CVTU64 wa: convert to an unsigned 64-bit integer (46_conversion.md R122). -/
  | cvtu64 (ra : Reg)
  /-- RENDER wa, m: canonical binary rendering, `spaced` the mode bit `m` (46_conversion.md R125). -/
  | render (ra : Reg) (spaced : Bool)
  /-- RDW wa: read the word out (46_conversion.md R126). -/
  | rdw (ra : Reg)
  deriving DecidableEq, Repr

end Sys2Proof
end

