-- ==== Sys2Proof/WellFormed.lean ====
section
/-! DEFINITION. What a well-formed command is. Register numbers and the mode bit are well-formed by their types
(spec/30_encoding.md R50: every 3-bit value names a register); what is left to check is the shift amount's range. -/

namespace Sys2Proof

/-- A shift amount fits the 16-bit two's-complement immediate: -32768 to 32767 (30_encoding.md R49). -/
def amountFits (n : Int) : Bool := decide (-32768 ≤ n) && decide (n ≤ 32767)

/-- A command that some command word encodes (30_encoding.md R49, R52). -/
def Instr.wellFormed : Instr → Bool
  | .flip _ _ => true
  | .ldi32 _ => true
  | .ldu32 _ => true
  | .ldi64 _ => true
  | .ldu64 _ => true
  | .ldf64 _ => true
  | .ldlit _ => true
  | .mov _ _ => true
  | .ldw _ => true
  | .neg _ _ => true
  | .incu _ _ => true
  | .decu _ _ => true
  | .inci _ _ => true
  | .deci _ _ => true
  | .add _ _ _ => true
  | .sub _ _ _ => true
  | .mul _ _ _ => true
  | .shl _ _ n => amountFits n
  | .shr _ _ n => amountFits n
  | .cvti32 _ => true
  | .cvtu32 _ => true
  | .cvti64 _ => true
  | .cvtu64 _ => true
  | .render _ _ => true
  | .rdw _ => true

end Sys2Proof
end

