-- ==== Sys2Proof/Decode.lean ====
section
/-! DEFINITION. The command word: its fields, the opcode map, the decoder and the encoder
(spec/30_encoding.md R42 to R56). -/

namespace Sys2Proof

/-- The six fields of a command word (30_encoding.md R43). -/
structure Fields where
  op    : BitVec 6
  rd    : Reg
  ra    : Reg
  rb    : Reg
  m     : Bool
  imm16 : BitVec 16
  deriving DecidableEq, Repr

/-- The 3-bit register field at bits `lo + 2` to `lo`, as a register number (30_encoding.md R43, R50). -/
def regField (c : BitVec 32) (lo : Nat) : Reg := Fin.ofNat 8 (c.extractLsb' lo 3).toNat

/-- The opcode field `cmd[31:26]` (30_encoding.md R43). -/
def opField (c : BitVec 32) : BitVec 6 := c.extractLsb' 26 6

/-- The fields of a command word at their fixed positions (30_encoding.md R43). -/
def splitFields (c : BitVec 32) : Fields where
  op    := opField c
  rd    := regField c 23
  ra    := regField c 20
  rb    := regField c 17
  m     := c.getLsbD 16
  imm16 := c.extractLsb' 0 16

/-- The command word that holds the given fields (30_encoding.md R43). -/
def joinFields (f : Fields) : BitVec 32 :=
  f.op ++ BitVec.ofNat 3 f.rd ++ BitVec.ofNat 3 f.ra ++ BitVec.ofNat 3 f.rb ++ BitVec.ofBool f.m ++ f.imm16

/-- The shift amount of an immediate: `n = sext_16(imm16)` (30_encoding.md R49). -/
def immAmount (imm : BitVec 16) : Int := imm.toInt

/-- The immediate of a shift amount: `imm16 = n mod 2^16` (30_encoding.md R57). -/
def amountImm (n : Int) : BitVec 16 := BitVec.ofInt 16 n

/-- One row of the opcode map (30_encoding.md R52), with the command its fields stand for. -/
structure OpcodeRow where
  mnemonic : String
  format   : Format
  op       : BitVec 6
  match32  : BitVec 32
  mask     : BitVec 32
  build    : Fields → Instr

/-- The opcode map (30_encoding.md R52), row for row. -/
def opcodeTable : List OpcodeRow := [
  ⟨"FLIP",   .r2, 0x01, 0x04000000, 0xFC0FFFFF, fun f => .flip f.rd f.ra⟩,
  ⟨"LDI32",  .ld, 0x08, 0x20000000, 0xFC7FFFFF, fun f => .ldi32 f.rd⟩,
  ⟨"LDU32",  .ld, 0x09, 0x24000000, 0xFC7FFFFF, fun f => .ldu32 f.rd⟩,
  ⟨"LDI64",  .ld, 0x0A, 0x28000000, 0xFC7FFFFF, fun f => .ldi64 f.rd⟩,
  ⟨"LDU64",  .ld, 0x0B, 0x2C000000, 0xFC7FFFFF, fun f => .ldu64 f.rd⟩,
  ⟨"LDF64",  .ld, 0x0C, 0x30000000, 0xFC7FFFFF, fun f => .ldf64 f.rd⟩,
  ⟨"LDLIT",  .ld, 0x0D, 0x34000000, 0xFC7FFFFF, fun f => .ldlit f.rd⟩,
  ⟨"MOV",    .r2, 0x0E, 0x38000000, 0xFC0FFFFF, fun f => .mov f.rd f.ra⟩,
  ⟨"LDW",    .ld, 0x0F, 0x3C000000, 0xFC7FFFFF, fun f => .ldw f.rd⟩,
  ⟨"NEG",    .r2, 0x10, 0x40000000, 0xFC0FFFFF, fun f => .neg f.rd f.ra⟩,
  ⟨"INCU",   .r2, 0x11, 0x44000000, 0xFC0FFFFF, fun f => .incu f.rd f.ra⟩,
  ⟨"DECU",   .r2, 0x12, 0x48000000, 0xFC0FFFFF, fun f => .decu f.rd f.ra⟩,
  ⟨"INCI",   .r2, 0x13, 0x4C000000, 0xFC0FFFFF, fun f => .inci f.rd f.ra⟩,
  ⟨"DECI",   .r2, 0x14, 0x50000000, 0xFC0FFFFF, fun f => .deci f.rd f.ra⟩,
  ⟨"ADD",    .r3, 0x15, 0x54000000, 0xFC01FFFF, fun f => .add f.rd f.ra f.rb⟩,
  ⟨"SUB",    .r3, 0x16, 0x58000000, 0xFC01FFFF, fun f => .sub f.rd f.ra f.rb⟩,
  ⟨"MUL",    .r3, 0x17, 0x5C000000, 0xFC01FFFF, fun f => .mul f.rd f.ra f.rb⟩,
  ⟨"SHL",    .ri, 0x18, 0x60000000, 0xFC0F0000, fun f => .shl f.rd f.ra (immAmount f.imm16)⟩,
  ⟨"SHR",    .ri, 0x19, 0x64000000, 0xFC0F0000, fun f => .shr f.rd f.ra (immAmount f.imm16)⟩,
  ⟨"CVTI32", .rd, 0x20, 0x80000000, 0xFF8FFFFF, fun f => .cvti32 f.ra⟩,
  ⟨"CVTU32", .rd, 0x21, 0x84000000, 0xFF8FFFFF, fun f => .cvtu32 f.ra⟩,
  ⟨"CVTI64", .rd, 0x22, 0x88000000, 0xFF8FFFFF, fun f => .cvti64 f.ra⟩,
  ⟨"CVTU64", .rd, 0x23, 0x8C000000, 0xFF8FFFFF, fun f => .cvtu64 f.ra⟩,
  ⟨"RENDER", .rd, 0x24, 0x90000000, 0xFF8EFFFF, fun f => .render f.ra f.m⟩,
  ⟨"RDW",    .rd, 0x25, 0x94000000, 0xFF8FFFFF, fun f => .rdw f.ra⟩]

/-- A command word `c` selects a row when `c AND mask = match` (30_encoding.md R52). -/
def OpcodeRow.selects (r : OpcodeRow) (c : BitVec 32) : Bool := c &&& r.mask == r.match32

/-- The decoder (30_encoding.md R53): the row with the word's opcode, then the must-be-zero test, then the fields.
`none` is `raise IllegalCommand`. It is total: every 32-bit value is one command or illegal. -/
def decode (c : BitVec 32) : Option Instr :=
  match opcodeTable.find? (fun r => r.op == opField c) with
  | none => none
  | some r => if r.selects c then some (r.build (splitFields c)) else none

/-- Format R3: `rd`, `ra`, `rb` (30_encoding.md R44). -/
def encodeR3 (op : BitVec 6) (rd ra rb : Reg) : BitVec 32 := joinFields ⟨op, rd, ra, rb, false, 0⟩

/-- Format R2: `rd`, `ra` (30_encoding.md R45). -/
def encodeR2 (op : BitVec 6) (rd ra : Reg) : BitVec 32 := joinFields ⟨op, rd, ra, 0, false, 0⟩

/-- Format RI: `rd`, `ra`, `imm16` (30_encoding.md R46). -/
def encodeRI (op : BitVec 6) (rd ra : Reg) (n : Int) : BitVec 32 := joinFields ⟨op, rd, ra, 0, false, amountImm n⟩

/-- Format LD: `rd` (30_encoding.md R47). -/
def encodeLD (op : BitVec 6) (rd : Reg) : BitVec 32 := joinFields ⟨op, rd, 0, 0, false, 0⟩

/-- Format RD: `ra`, and for RENDER `m` (30_encoding.md R48). -/
def encodeRD (op : BitVec 6) (ra : Reg) (m : Bool) : BitVec 32 := joinFields ⟨op, 0, ra, 0, m, 0⟩

/-- The encoder: the command word of a command (30_encoding.md R43 to R52). For a well-formed command it is the
one word that decodes to it. -/
def encode : Instr → BitVec 32
  | .flip rd ra => encodeR2 0x01 rd ra
  | .ldi32 rd => encodeLD 0x08 rd
  | .ldu32 rd => encodeLD 0x09 rd
  | .ldi64 rd => encodeLD 0x0A rd
  | .ldu64 rd => encodeLD 0x0B rd
  | .ldf64 rd => encodeLD 0x0C rd
  | .ldlit rd => encodeLD 0x0D rd
  | .mov rd ra => encodeR2 0x0E rd ra
  | .ldw rd => encodeLD 0x0F rd
  | .neg rd ra => encodeR2 0x10 rd ra
  | .incu rd ra => encodeR2 0x11 rd ra
  | .decu rd ra => encodeR2 0x12 rd ra
  | .inci rd ra => encodeR2 0x13 rd ra
  | .deci rd ra => encodeR2 0x14 rd ra
  | .add rd ra rb => encodeR3 0x15 rd ra rb
  | .sub rd ra rb => encodeR3 0x16 rd ra rb
  | .mul rd ra rb => encodeR3 0x17 rd ra rb
  | .shl rd ra n => encodeRI 0x18 rd ra n
  | .shr rd ra n => encodeRI 0x19 rd ra n
  | .cvti32 ra => encodeRD 0x20 ra false
  | .cvtu32 ra => encodeRD 0x21 ra false
  | .cvti64 ra => encodeRD 0x22 ra false
  | .cvtu64 ra => encodeRD 0x23 ra false
  | .render ra m => encodeRD 0x24 ra m
  | .rdw ra => encodeRD 0x25 ra false

/-- The mnemonic of a command (30_encoding.md R52). -/
def Instr.mnemonic : Instr → String
  | .flip _ _ => "FLIP"
  | .ldi32 _ => "LDI32"
  | .ldu32 _ => "LDU32"
  | .ldi64 _ => "LDI64"
  | .ldu64 _ => "LDU64"
  | .ldf64 _ => "LDF64"
  | .ldlit _ => "LDLIT"
  | .mov _ _ => "MOV"
  | .ldw _ => "LDW"
  | .neg _ _ => "NEG"
  | .incu _ _ => "INCU"
  | .decu _ _ => "DECU"
  | .inci _ _ => "INCI"
  | .deci _ _ => "DECI"
  | .add _ _ _ => "ADD"
  | .sub _ _ _ => "SUB"
  | .mul _ _ _ => "MUL"
  | .shl _ _ _ => "SHL"
  | .shr _ _ _ => "SHR"
  | .cvti32 _ => "CVTI32"
  | .cvtu32 _ => "CVTU32"
  | .cvti64 _ => "CVTI64"
  | .cvtu64 _ => "CVTU64"
  | .render _ _ => "RENDER"
  | .rdw _ => "RDW"

/-- The command word of an instruction given as the host's number `w`, of which `nbits` bits count and the rest are 0.
A command is one 32-bit word with LSB-0 bit positions (30_encoding.md R42, R43), so the number is the word. -/
def tableWord (nbits w : Nat) : BitVec 32 := BitVec.ofNat 32 (w % 2 ^ nbits)

/-- The instruction the decoder reads from a table word (the host's question about spec/opcode_table.json). -/
def decodeTableWord (nbits w : Nat) : Option Instr := decode (tableWord nbits w)

end Sys2Proof
end

