-- ==== Sys2Proof/Config.lean ====
section
/-! DEFINITION. The parameters of FP256 CORE (spec/00_scope.md R6, R7). The widths 256, 64, 32 and 16 and the
register count 8 stand as numerals in the types of `Word.lean`, `Syntax.lean` and `Machine/State.lean`. The two OPEN
parameters, `LATENCY(op)` and `TEXT_MAX`, enter no result (92_eei_decisions.md D2, D13) and are not modelled:
texts are unbounded lists, so what is proved holds for every `TEXT_MAX` (93_implementation_defined.md U8). The spec
leaves no value of any result open, so there is no opaque constant here. -/

namespace Sys2Proof.Config

/-- `SIGN_IDX`: word bit index of the sign bit (00_scope.md R6). -/
def signIdx : BitIdx := 0

/-- `INT_LSB_IDX`: word bit index of weight 2^0, where integer-resolution steps start (00_scope.md R6). -/
def intLsbIdx : BitIdx := 191

/-- `FRAC_LSB_IDX`: word bit index of weight 2^-64, where full-resolution steps start (00_scope.md R6). -/
def fracLsbIdx : BitIdx := 255

/-- The bias of a binary64 exponent (41_construction.md R70, 93_implementation_defined.md G2). PRESUMED: log 13. -/
def expBias : Int := 1023

/-- The character `'0'` (20_memory.md R35, 93_implementation_defined.md G1). PRESUMED: log 13. -/
def chZero : Byte := 0x30#8

/-- The character `'1'` (20_memory.md R35, 93_implementation_defined.md G1). PRESUMED: log 13. -/
def chOne : Byte := 0x31#8

/-- The character `'b'` (20_memory.md R35, 93_implementation_defined.md G1). PRESUMED: log 13. -/
def chB : Byte := 0x62#8

/-- The space (20_memory.md R35, 93_implementation_defined.md G1). PRESUMED: log 13. -/
def chSpace : Byte := 0x20#8

end Sys2Proof.Config
end

