-- ==== Sys2Proof/Machine/State.lean ====
section
/-! DEFINITION. The state of FP256 CORE as plain data (spec/10_state.md R15 to R29), the ports as the model sees
them (00_scope.md R12, 70_reset_and_hazards.md R143), the reasons a step can stop, and the state after reset. -/

namespace Sys2Proof.Machine

/-- A command as the host presents it: the command word and the data beside it (00_scope.md R12). -/
structure Command where
  /-- The 32-bit command word (30_encoding.md R42). -/
  cmd : BitVec 32
  /-- The 256-bit data input, LSB-0 (20_memory.md R33). -/
  din : BitVec 256
  /-- The input text, first character first, of any length (20_memory.md R35; log 6). -/
  tin : List Byte
  deriving DecidableEq, Repr

/-- What the host can do to the core between two points where it is idle. -/
inductive HostEvent where
  /-- Present one command on the command port (20_memory.md R38). -/
  | command (c : Command)
  /-- Drive `rst` high at a clock edge, with the command in progress at that moment if there is one
  (70_reset_and_hazards.md R144, R145; DEDUCED: log 5). -/
  | reset (inProgress : Option Command)
  deriving DecidableEq, Repr

/-- The outputs of the response port (00_scope.md R12, 70_reset_and_hazards.md R143). -/
structure Response where
  /-- `rsp_valid`: a command has been answered since the last reset (70_reset_and_hazards.md R143, R144; log 4). -/
  valid : Bool
  /-- The 2-bit status code (60_exceptions.md R130). -/
  status : BitVec 2
  /-- The 256-bit data output, LSB-0 (20_memory.md R34). -/
  dout : BitVec 256
  /-- The output text (20_memory.md R36). -/
  tout : List Byte
  deriving DecidableEq, Repr

/-- Status code 0, OK: decoded and executed (60_exceptions.md R130). -/
abbrev statusOk : BitVec 2 := 0#2

/-- Status code 1, ILLEGAL: the command word is not a command (60_exceptions.md R130). -/
abbrev statusIllegal : BitVec 2 := 1#2

/-- The state of the machine. -/
structure State where
  /-- The eight word registers `w0` to `w7` (10_state.md R15). They are the whole of the architectural state (R29). -/
  regs : Vector Word 8
  /-- The command port as sampled with the command being executed (70_reset_and_hazards.md R149; log 2). -/
  port : Command
  /-- The response port: the outputs of the latest response (60_exceptions.md R130; log 4). -/
  rsp : Response
  /-- The model's own field: what the host will do next, oldest first (10_state.md R20; log 1). -/
  pending : List HostEvent
  deriving DecidableEq, Repr

/-- The reasons the machine stops with a fault: there are none. The one exception of the hardware, IllegalCommand,
is a response and not a stop (60_exceptions.md R129, R131, R134), so this type has no constructor and no step can
fault (log 10). -/
inductive Fault : Type where
  deriving DecidableEq, Repr

/-- The reasons the model gives an instruction no meaning. -/
inductive Refusal where
  /-- Raised by an arm of `exec` whose instruction has no meaning yet. Safe: the model stops where the hardware goes
  on. No arm raises it now. -/
  | notModelled (mnemonic : String)
  deriving DecidableEq, Repr

/-- The response port after reset: `rsp_valid = 0`, `status = OK`, `dout = 0`, `tout` empty (10_state.md R27,
70_reset_and_hazards.md R144). -/
def Response.afterReset : Response where
  valid := false
  status := statusOk
  dout := 0#256
  tout := []

/-- The command port before the host has presented anything. The spec gives inputs no reset value.
DESIGN CHOICE: zeros, log 2. Nothing reads it before a command overwrites it. -/
def Command.idle : Command where
  cmd := 0#32
  din := 0#256
  tin := []

/-- The machine right after reset: every register the zero word, the response outputs at their reset values
(10_state.md R27, R29; 70_reset_and_hazards.md R144), and no host event placed (log 1). -/
def State.reset : State where
  regs := Vector.replicate 8 zeroWord
  port := Command.idle
  rsp := Response.afterReset
  pending := []

end Sys2Proof.Machine
end

