-- ==== Sys2Proof/Machine/Ops.lean ====
section
/-! DEFINITION. The named operations every meaning is built from: limbs and bits of a word (spec/40_storage.md R60 to
R62), the register file (10_state.md R15, R18), the response port (60_exceptions.md R130), the one exception
(60_exceptions.md R131) and reset (70_reset_and_hazards.md R144). -/

namespace Sys2Proof.Machine

/-! ### Limbs and bits -/

/-- The integer bit position in `U` where a limb starts (00_scope.md R9, R10). -/
def limbLow : Limb → Nat
  | .left => 192
  | .middle => 128
  | .right => 64
  | .fractional => 0

/-- `W.left`, `W.middle`, `W.right`, `W.fractional` (00_scope.md R9). -/
def limb (W : Word) (L : Limb) : LimbWord := W.extractLsb' (limbLow L) 64

/-- The word made of four limbs, most significant first (00_scope.md R9). -/
def ofLimbs (left middle right fractional : LimbWord) : Word := left ++ middle ++ right ++ fractional

/-- `W.L <- v`: the word with one limb replaced (00_scope.md R9). -/
def setLimb (W : Word) (L : Limb) (v : LimbWord) : Word :=
  match L with
  | .left => ofLimbs v (limb W .middle) (limb W .right) (limb W .fractional)
  | .middle => ofLimbs (limb W .left) v (limb W .right) (limb W .fractional)
  | .right => ofLimbs (limb W .left) (limb W .middle) v (limb W .fractional)
  | .fractional => ofLimbs (limb W .left) (limb W .middle) (limb W .right) v

/-- The limb a word bit index is routed to, by range (40_storage.md R60). -/
def limbOf (i : BitIdx) : Limb :=
  if i.val < 64 then .left
  else if i.val < 128 then .middle
  else if i.val < 192 then .right
  else .fractional

/-- The LSB-0 position of a word bit inside its limb: the in-limb bit is addressed most significant first
(40_storage.md R60). -/
def inLimb (i : BitIdx) : Nat := 63 - i.val % 64

/-- `get(W, i)` (40_storage.md R60). -/
def getBit (W : Word) (i : BitIdx) : Bool := (limb W (limbOf i)).getLsbD (inLimb i)

/-- A limb with the bit at LSB-0 position `k` replaced (40_storage.md R61). -/
def setLimbBit (x : LimbWord) (k : Nat) (b : Bool) : LimbWord :=
  (x &&& ~~~(1#64 <<< k)) ||| ((BitVec.ofBool b).setWidth 64 <<< k)

/-- `set(W, i, b)` (40_storage.md R61). -/
def setBit (W : Word) (i : BitIdx) (b : Bool) : Word :=
  setLimb W (limbOf i) (setLimbBit (limb W (limbOf i)) (inLimb i) b)

/-- `flip(W)`: ones' complement of all four limbs (40_storage.md R62). -/
def flipBits (W : Word) : Word :=
  ofLimbs (~~~(limb W .left)) (~~~(limb W .middle)) (~~~(limb W .right)) (~~~(limb W .fractional))

/-! ### The register file -/

/-- `w[r]`: all 256 bits as they stand; no register is hardwired (00_scope.md R11, 10_state.md R15, R28). -/
def readReg (s : State) (r : Reg) : Word := s.regs.get r

/-- `w[r] <- v`: all 256 bits at once (00_scope.md R11, 20_memory.md R37). -/
def writeReg (s : State) (r : Reg) (v : Word) : State := { s with regs := s.regs.set r.val v r.isLt }

/-! ### Responses -/

/-- Give the response of a command (00_scope.md R12, 60_exceptions.md R130). -/
def respond (s : State) (status : BitVec 2) (dout : BitVec 256) (tout : List Byte) : State :=
  { s with rsp := { valid := true, status := status, dout := dout, tout := tout } }

/-- The end of a command that writes a register: `w[rd] <- v; dout <- 0; tout <- empty; status OK`
(10_state.md R18, 20_memory.md R34, R36). The sources have been read by now, so `rd` may be any of them
(70_reset_and_hazards.md R148). -/
def finishWrite (s : State) (rd : Reg) (v : Word) : Host.Outcome State Fault Refusal :=
  .next (respond (writeReg s rd v) statusOk 0#256 [])

/-- The end of a command that writes no register: `dout <- d; tout <- t; status OK`
(10_state.md R18, 46_conversion.md R127). -/
def finishOutput (s : State) (d : BitVec 256) (t : List Byte) : Host.Outcome State Fault Refusal :=
  .next (respond s statusOk d t)

/-! ### The one exception, and reset

There is no return from the exception: it saves nothing, changes no mode and is not sticky
(60_exceptions.md R134, R135), so the next command runs from the state it leaves. -/

/-- `raise IllegalCommand`: `status = ILLEGAL`, `dout = 0`, `tout` empty, no register changed, nothing recorded
(60_exceptions.md R131, R134). -/
def raiseIllegal (s : State) : State := respond s statusIllegal 0#256 []

/-- The host's next command is accepted: it leaves the host's list and its word, `din` and `tin` are sampled once
(20_memory.md R38, 70_reset_and_hazards.md R149). -/
def acceptCommand (s : State) (c : Command) (rest : List HostEvent) : State :=
  { s with port := c, pending := rest }

/-- `rst` sampled high: every register becomes the zero word, the response outputs take their reset values, and a
command in progress is abandoned: it has no effect and gets no response (70_reset_and_hazards.md R144, R145). What the
host does afterwards is not touched. -/
def applyReset (_abandoned : Option Command) (rest : List HostEvent) : State :=
  { State.reset with pending := rest }

/-- Nothing is presented: the hardware is idle and holds its registers (60_exceptions.md R142; log 3). -/
def idle (s : State) : State := s

end Sys2Proof.Machine
end

