-- ==== Sys2Proof/Machine/Flags.lean ====
section
/-! DEFINITION. The hardware has no status flags and no condition codes (spec/10_state.md R22): no command writes one
as a side effect. The one flag computation of the spec is the pending carry of the adder, a working value that does not
outlive the command (10_state.md R26, 43_add_sub.md R94, R100). -/

namespace Sys2Proof.Machine

/-- `MAX`, the limb's maximum value 2^64 - 1 (43_add_sub.md, opening). -/
def limbMax : LimbWord := BitVec.allOnes 64

/-- The pending carry as a limb value, 0 or 1 (43_add_sub.md R93). -/
def carryBit (c : Bool) : LimbWord := (BitVec.ofBool c).setWidth 64

/-- First disjunct `d1`: the limb's maximum less the accumulated sum is below the addend (43_add_sub.md R94). -/
def carryD1 (a b : LimbWord) : Bool := decide (limbMax - a < b)

/-- Second disjunct `d2`: for every limb but `fractional`, the running sum is the limb's maximum and a carry is
pending. It is not redundant (43_add_sub.md R94, 90_conflicts.md C2). -/
def carryD2 (L : Limb) (a b : LimbWord) (c : Bool) : Bool := (L != .fractional) && (a + b == limbMax) && c

/-- `carry_out(L, a, b, c)` (43_add_sub.md R94). -/
def carryOut (L : Limb) (a b : LimbWord) (c : Bool) : Bool := carryD1 a b || carryD2 L a b c

end Sys2Proof.Machine
end

