-- ==== Sys2Proof/Machine/NegateStep.lean ====
section
/-! DEFINITION. The ripple incrementer and decrementer, the negator, and NEG, INCU, DECU, INCI, DECI
(spec/42_negate_increment.md R80 to R90). -/

namespace Sys2Proof.Machine

/-- The scan of `inc_from` with `n` word bits still to visit, indexes `n - 1` down to 0: clear 1-bits until a 0-bit is
found, then set it; past index 0 there is nothing to set (42_negate_increment.md R80). -/
def incScan : (n : Nat) → n ≤ 256 → Word → Word
  | 0, _, W => W
  | i + 1, h, W =>
    if getBit W ⟨i, h⟩ then incScan i (Nat.le_of_succ_le h) (setBit W ⟨i, h⟩ false) else setBit W ⟨i, h⟩ true

/-- The scan of `dec_from`, the mirror: set 0-bits until a 1-bit is found, then clear it
(42_negate_increment.md R81). -/
def decScan : (n : Nat) → n ≤ 256 → Word → Word
  | 0, _, W => W
  | i + 1, h, W =>
    if getBit W ⟨i, h⟩ then setBit W ⟨i, h⟩ false else decScan i (Nat.le_of_succ_le h) (setBit W ⟨i, h⟩ true)

/-- `inc_from(W, p)` (42_negate_increment.md R80). -/
def incFrom (W : Word) (p : BitIdx) : Word := incScan (p.val + 1) p.isLt W

/-- `dec_from(W, p)` (42_negate_increment.md R81). -/
def decFrom (W : Word) (p : BitIdx) : Word := decScan (p.val + 1) p.isLt W

/-- `negate(W)`: complement then increment when the sign bit is 0, decrement then complement when it is 1. The order
is kept as the source requires (42_negate_increment.md R87). -/
def negate (W : Word) : Word :=
  if getBit W Config.signIdx then flipBits (decFrom W Config.fracLsbIdx) else incFrom (flipBits W) Config.fracLsbIdx

/-- NEG wd, wa (42_negate_increment.md R89). -/
def execNeg (rd ra : Reg) (s : State) : Host.Outcome State Fault Refusal :=
  finishWrite s rd (negate (readReg s ra))

/-- INCU wd, wa: the full-resolution step up (42_negate_increment.md R83). -/
def execIncu (rd ra : Reg) (s : State) : Host.Outcome State Fault Refusal :=
  finishWrite s rd (incFrom (readReg s ra) Config.fracLsbIdx)

/-- DECU wd, wa: the full-resolution step down (42_negate_increment.md R84). -/
def execDecu (rd ra : Reg) (s : State) : Host.Outcome State Fault Refusal :=
  finishWrite s rd (decFrom (readReg s ra) Config.fracLsbIdx)

/-- INCI wd, wa: the integer-resolution step up (42_negate_increment.md R85). -/
def execInci (rd ra : Reg) (s : State) : Host.Outcome State Fault Refusal :=
  finishWrite s rd (incFrom (readReg s ra) Config.intLsbIdx)

/-- DECI wd, wa: the integer-resolution step down (42_negate_increment.md R86). -/
def execDeci (rd ra : Reg) (s : State) : Host.Outcome State Fault Refusal :=
  finishWrite s rd (decFrom (readReg s ra) Config.intLsbIdx)

end Sys2Proof.Machine
end

