-- ==== Sys2Proof/Machine/AddSub.lean ====
section
/-! DEFINITION. The four-limb ripple-carry adder, ADD and SUB (spec/43_add_sub.md). -/

namespace Sys2Proof.Machine

/-- The limbs in the order the adder takes them, least significant first (43_add_sub.md R93). -/
def rippleOrder : List Limb := [.fractional, .right, .middle, .left]

/-- One limb of the addition: its sum into the result, its carry to the next limb (43_add_sub.md R93). -/
def addLimb (A B : Word) (acc : Word × Bool) (L : Limb) : Word × Bool :=
  let a := limb A L
  let b := limb B L
  (setLimb acc.1 L (a + b + carryBit acc.2), carryOut L a b acc.2)

/-- `add(A, B)`: the pending carry starts at 0 and the last one is discarded (43_add_sub.md R93, R100). -/
def add (A B : Word) : Word := (rippleOrder.foldl (addLimb A B) (zeroWord, false)).1

/-- `sub(A, B) = add(A, negate(B))` (43_add_sub.md R97). -/
def sub (A B : Word) : Word := add A (negate B)

/-- ADD wd, wa, wb (43_add_sub.md R96). -/
def execAdd (rd ra rb : Reg) (s : State) : Host.Outcome State Fault Refusal :=
  finishWrite s rd (add (readReg s ra) (readReg s rb))

/-- SUB wd, wa, wb (43_add_sub.md R98). -/
def execSub (rd ra rb : Reg) (s : State) : Host.Outcome State Fault Refusal :=
  finishWrite s rd (sub (readReg s ra) (readReg s rb))

end Sys2Proof.Machine
end

