-- ==== Sys2Proof/Machine/Operands.lean ====
section
/-! DEFINITION. The operands that ride beside the command word, as each command reads them
(spec/20_memory.md R33, R35), and the decomposition of a binary64 pattern (41_construction.md R70). -/

namespace Sys2Proof.Machine

/-- `din[31:0]` (20_memory.md R33). -/
def din32 (s : State) : BitVec 32 := s.port.din.extractLsb' 0 32

/-- `din[63:0]` (20_memory.md R33). -/
def din64 (s : State) : BitVec 64 := s.port.din.extractLsb' 0 64

/-- `din[255:0]` as a word: `din[255:192]` is the left limb, `din[63:0]` the fractional limb (20_memory.md R33). -/
def dinWord (s : State) : Word := s.port.din

/-- `tin`, first character first (20_memory.md R35). -/
def tinText (s : State) : List Byte := s.port.tin

/-- `sext_N(v)`: an N-bit pattern read as a signed integer (00_scope.md R11). -/
def sext {N : Nat} (v : BitVec N) : Int := v.toInt

/-- `zext_N(v)`: an N-bit pattern read as an unsigned integer (00_scope.md R11). -/
def zext {N : Nat} (v : BitVec N) : Nat := v.toNat

/-- The parts of a binary64 pattern (41_construction.md R70). -/
structure Binary64 where
  /-- The sign bit. -/
  sgn : Bool
  /-- The unbiased exponent, a signed integer. -/
  e : Int
  /-- The 53-bit mantissa, the leading 1 restored for every input. -/
  m : BitVec 53
  deriving DecidableEq, Repr

/-- `decompose(d)`: sign `d[63]`, exponent `d[62:52] - 1023`, mantissa `2^52 + d[51:0]` (41_construction.md R70). -/
def decompose (d : BitVec 64) : Binary64 where
  sgn := d.getLsbD 63
  e := (zext (d.extractLsb' 52 11) : Int) - Config.expBias
  m := 1#1 ++ d.extractLsb' 0 52

end Sys2Proof.Machine
end

