-- ==== Sys2Proof/Machine/Construction.lean ====
section
/-! DEFINITION. Construction: LDI32, LDU32, LDI64, LDU64, LDF64, LDLIT, MOV, LDW (spec/41_construction.md). -/

namespace Sys2Proof.Machine

/-! ### Integer loads -/

/-- The integer part of a word being built: the zero word with `right <- v` (41_construction.md R65, R66). -/
def withRight (v : Nat) : Word := setLimb zeroWord .right (BitVec.ofNat 64 v)

/-- The word of a signed integer: its mathematical absolute value in the `right` limb, then negation if it was
negative (41_construction.md R66, R68; 92_eei_decisions.md D11). -/
def wordOfSigned (v : Int) : Word :=
  let W := withRight v.natAbs
  if v < 0 then negate W else W

/-- LDI32 wd, #v (41_construction.md R66). -/
def execLdi32 (rd : Reg) (s : State) : Host.Outcome State Fault Refusal :=
  finishWrite s rd (wordOfSigned (sext (din32 s)))

/-- LDU32 wd, #v (41_construction.md R67). -/
def execLdu32 (rd : Reg) (s : State) : Host.Outcome State Fault Refusal :=
  finishWrite s rd (withRight (zext (din32 s)))

/-- LDI64 wd, #v (41_construction.md R68). -/
def execLdi64 (rd : Reg) (s : State) : Host.Outcome State Fault Refusal :=
  finishWrite s rd (wordOfSigned (sext (din64 s)))

/-- LDU64 wd, #v (41_construction.md R69). -/
def execLdu64 (rd : Reg) (s : State) : Host.Outcome State Fault Refusal :=
  finishWrite s rd (withRight (zext (din64 s)))

/-! ### The IEEE-754 to fixed-point converter -/

/-- `if 0 <= p <= 255: set(W, p, b)`, otherwise the bit is dropped; `p` is a mathematical integer and never wraps
(41_construction.md R71). -/
def setIfInside (W : Word) (p : Int) (b : Bool) : Word :=
  if h : 0 ≤ p ∧ p ≤ 255 then setBit W ⟨p.toNat, by omega⟩ b else W

/-- Mantissa bits `k - 1` down to 0 written at their word bit indexes `243 - e - k`, the most significant first
(41_construction.md R71, 90_conflicts.md C1). -/
def placeMantissa (e : Int) (m : BitVec 53) : Nat → Word → Word
  | 0, W => W
  | k + 1, W => placeMantissa e m k (setIfInside W (243 - e - k) (m.getLsbD k))

/-- The word of a binary64 pattern, every pattern alike: no rounding, no saturation, no special case for zero,
subnormal, infinity or NaN (41_construction.md R71 to R73). -/
def wordOfBinary64 (d : BitVec 64) : Word :=
  let x := decompose d
  let W := placeMantissa x.e x.m 53 zeroWord
  if x.sgn then negate W else W

/-- LDF64 wd, #x (41_construction.md R71). -/
def execLdf64 (rd : Reg) (s : State) : Host.Outcome State Fault Refusal :=
  finishWrite s rd (wordOfBinary64 (din64 s))

/-! ### The literal loader -/

/-- The characters after the prefix, given from the last one back, written from word bit `255 - j` on: `'1'` sets the
bit, `'0'` clears it, any other character leaves it and still uses its place; characters beyond 256 from the end are
ignored (41_construction.md R74, 92_eei_decisions.md D12). -/
def placeDigits : (fromEnd : List Byte) → (j : Nat) → Word → Word
  | [], _, W => W
  | ch :: rest, j, W =>
    if j > 255 then W
    else if ch = Config.chOne then placeDigits rest (j + 1) (setIfInside W (255 - j) true)
    else if ch = Config.chZero then placeDigits rest (j + 1) (setIfInside W (255 - j) false)
    else placeDigits rest (j + 1) W

/-- `parse_literal(t)`: the zero word unless the text begins with the two bytes of `"0b"`
(41_construction.md R74). -/
def parseLiteral (t : List Byte) : Word :=
  match t with
  | c0 :: c1 :: digits =>
    if c0 = Config.chZero ∧ c1 = Config.chB then placeDigits digits.reverse 0 zeroWord else zeroWord
  | _ => zeroWord

/-- LDLIT wd, "text" (41_construction.md R75). -/
def execLdlit (rd : Reg) (s : State) : Host.Outcome State Fault Refusal :=
  finishWrite s rd (parseLiteral (tinText s))

/-! ### Copies -/

/-- MOV wd, wa (41_construction.md R77). -/
def execMov (rd ra : Reg) (s : State) : Host.Outcome State Fault Refusal :=
  finishWrite s rd (readReg s ra)

/-- LDW wd, #u (41_construction.md R78). -/
def execLdw (rd : Reg) (s : State) : Host.Outcome State Fault Refusal :=
  finishWrite s rd (dinWord s)

end Sys2Proof.Machine
end

