-- ==== Sys2Proof/Machine/Conversion.lean ====
section
/-! DEFINITION. The integer converter, the renderer, and CVTI32, CVTU32, CVTI64, CVTU64, RENDER, RDW
(spec/46_conversion.md). -/

namespace Sys2Proof.Machine

/-- `to_int64_bits(W)`: the `right` limb, or for a negative word the 64-bit negation of the `right` limb of the
negated word (46_conversion.md R117). -/
def toInt64Bits (W : Word) : BitVec 64 :=
  if getBit W Config.signIdx then -(limb (negate W) .right) else limb W .right

/-- The result bits for a 32-bit target, `b[31:0]` (46_conversion.md R118). -/
def toInt32Bits (W : Word) : BitVec 32 := (toInt64Bits W).extractLsb' 0 32

/-- CVTI32 wa: 32 result bits, zeros above them (46_conversion.md R119, 20_memory.md R34). -/
def execCvti32 (ra : Reg) (s : State) : Host.Outcome State Fault Refusal :=
  finishOutput s ((toInt32Bits (readReg s ra)).setWidth 256) []

/-- CVTU32 wa: the same bits as CVTI32, read as unsigned by the host (46_conversion.md R120). -/
def execCvtu32 (ra : Reg) (s : State) : Host.Outcome State Fault Refusal :=
  finishOutput s ((toInt32Bits (readReg s ra)).setWidth 256) []

/-- CVTI64 wa: 64 result bits, zeros above them (46_conversion.md R121, 20_memory.md R34). -/
def execCvti64 (ra : Reg) (s : State) : Host.Outcome State Fault Refusal :=
  finishOutput s ((toInt64Bits (readReg s ra)).setWidth 256) []

/-- CVTU64 wa: the same bits as CVTI64, read as unsigned by the host (46_conversion.md R122). -/
def execCvtu64 (ra : Reg) (s : State) : Host.Outcome State Fault Refusal :=
  finishOutput s ((toInt64Bits (readReg s ra)).setWidth 256) []

/-- The character of a bit, `'1'` or `'0'` (46_conversion.md R124). -/
def bitChar (b : Bool) : Byte := if b then Config.chOne else Config.chZero

/-- The characters of `n` word bits from index `lo` on, in storage order (46_conversion.md R124). -/
def fieldText (W : Word) (lo n : Nat) (h : lo + n ≤ 256) : List Byte :=
  List.ofFn fun k : Fin n => bitChar (getBit W ⟨lo + k.val, by omega⟩)

/-- `render(W, spaced)`: sign, integer and fractional field, with one space between fields in the spaced mode
(46_conversion.md R124, 92_eei_decisions.md D17). -/
def render (W : Word) (spaced : Bool) : List Byte :=
  let sign := fieldText W 0 1 (by decide)
  let intf := fieldText W 1 191 (by decide)
  let fracf := fieldText W 192 64 (by decide)
  if spaced then sign ++ [Config.chSpace] ++ intf ++ [Config.chSpace] ++ fracf else sign ++ intf ++ fracf

/-- RENDER wa, m (46_conversion.md R125). -/
def execRender (ra : Reg) (spaced : Bool) (s : State) : Host.Outcome State Fault Refusal :=
  finishOutput s 0#256 (render (readReg s ra) spaced)

/-- RDW wa: `dout[255:0] = U(w[ra])` (46_conversion.md R126). -/
def execRdw (ra : Reg) (s : State) : Host.Outcome State Fault Refusal :=
  finishOutput s (readReg s ra) []

end Sys2Proof.Machine
end

