-- ==== Sys2Proof/Machine/Shift.lean ====
section
/-! DEFINITION. The 256-bit shifter, SHL and SHR (spec/45_shift.md). -/

namespace Sys2Proof.Machine

/-- `shl(W, n)`: every bit moves `n` positions toward bit 0 over the whole 256-bit field, zeros enter at the bottom;
`n` is not reduced modulo the width (45_shift.md R109, R112). -/
def shl (W : Word) (n : Nat) : Word := W <<< n

/-- `shr(W, n)`: every bit moves `n` positions toward bit 255, copies of the original sign bit enter at the top;
`n` is not reduced modulo the width (45_shift.md R110, R112). -/
def shr (W : Word) (n : Nat) : Word := W.sshiftRight n

/-- `shift_left(W, n)` for a signed amount: a negative one redirects to the right shift by its magnitude
(45_shift.md R111). -/
def shiftLeft (W : Word) (n : Int) : Word := if 0 ≤ n then shl W n.toNat else shr W (-n).toNat

/-- `shift_right(W, n)` for a signed amount: a negative one redirects to the left shift by its magnitude
(45_shift.md R111). -/
def shiftRight (W : Word) (n : Int) : Word := if 0 ≤ n then shr W n.toNat else shl W (-n).toNat

/-- SHL wd, wa, #n (45_shift.md R113). -/
def execShl (rd ra : Reg) (n : Int) (s : State) : Host.Outcome State Fault Refusal :=
  finishWrite s rd (shiftLeft (readReg s ra) n)

/-- SHR wd, wa, #n (45_shift.md R114). -/
def execShr (rd ra : Reg) (n : Int) (s : State) : Host.Outcome State Fault Refusal :=
  finishWrite s rd (shiftRight (readReg s ra) n)

end Sys2Proof.Machine
end

