-- ==== Sys2Proof/Machine/Multiply.lean ====
section
/-! DEFINITION. The shift-and-add multiplier and MUL, its edge-case quirks kept (spec/44_multiply.md R101 to R107). -/

namespace Sys2Proof.Machine

/-- The inner loop over one limb of the multiplier, `steps` bits still to test from bit `k` on: test the lowest bit of
the local copy `x`, add the shifted multiplicand if it is 1, shift the copy right by one (44_multiply.md R103). -/
def mulBits (A : Word) (base : Int) : (steps k : Nat) → (x : LimbWord) → (P : Word) → Word
  | 0, _, _, P => P
  | steps + 1, k, x, P =>
    mulBits A base steps (k + 1) (x >>> 1) (if x.getLsbD 0 then add P (shiftLeft A (base + k)) else P)

/-- The multiplier's limbs with the logical shift of their lowest bit, in the order they are consumed; the sign bit is
one more bit of the unsigned stream (44_multiply.md R102, R103). -/
def mulOrder : List (Limb × Int) := [(.fractional, -64), (.right, 0), (.middle, 64), (.left, 128)]

/-- One limb of the multiplier consumed, its 64 bits in a local copy (44_multiply.md R103). -/
def mulLimb (A B P : Word) (Lb : Limb × Int) : Word := mulBits A Lb.2 64 0 (limb B Lb.1) P

/-- `mul(A, B)`, `A` the multiplicand, `B` the multiplier (44_multiply.md R103). -/
def mul (A B : Word) : Word := mulOrder.foldl (mulLimb A B) zeroWord

/-- MUL wd, wa, wb: `w[ra]` is the multiplicand, `w[rb]` the multiplier (44_multiply.md R101, R105). -/
def execMul (rd ra rb : Reg) (s : State) : Host.Outcome State Fault Refusal :=
  finishWrite s rd (mul (readReg s ra) (readReg s rb))

end Sys2Proof.Machine
end

