-- ==== Sys2Proof/Machine/Storage.lean ====
section
/-! DEFINITION. Storage: FLIP (spec/40_storage.md R64). -/

namespace Sys2Proof.Machine

/-- FLIP wd, wa (40_storage.md R64). -/
def execFlip (rd ra : Reg) (s : State) : Host.Outcome State Fault Refusal :=
  finishWrite s rd (flipBits (readReg s ra))

end Sys2Proof.Machine
end

