-- ==== Sys2Proof/Machine/Dispatch.lean ====
section
/-! DEFINITION. One meaning for each command of spec/30_encoding.md R52, in the table's order. -/

namespace Sys2Proof.Machine

def exec (i : Instr) (s : State) : Host.Outcome State Fault Refusal :=
  match i with
  | .flip rd ra => Sys2Proof.Machine.execFlip rd ra s
  | .ldi32 rd => Sys2Proof.Machine.execLdi32 rd s
  | .ldu32 rd => Sys2Proof.Machine.execLdu32 rd s
  | .ldi64 rd => Sys2Proof.Machine.execLdi64 rd s
  | .ldu64 rd => Sys2Proof.Machine.execLdu64 rd s
  | .ldf64 rd => Sys2Proof.Machine.execLdf64 rd s
  | .ldlit rd => Sys2Proof.Machine.execLdlit rd s
  | .mov rd ra => Sys2Proof.Machine.execMov rd ra s
  | .ldw rd => Sys2Proof.Machine.execLdw rd s
  | .neg rd ra => Sys2Proof.Machine.execNeg rd ra s
  | .incu rd ra => Sys2Proof.Machine.execIncu rd ra s
  | .decu rd ra => Sys2Proof.Machine.execDecu rd ra s
  | .inci rd ra => Sys2Proof.Machine.execInci rd ra s
  | .deci rd ra => Sys2Proof.Machine.execDeci rd ra s
  | .add rd ra rb => Sys2Proof.Machine.execAdd rd ra rb s
  | .sub rd ra rb => Sys2Proof.Machine.execSub rd ra rb s
  | .mul rd ra rb => Sys2Proof.Machine.execMul rd ra rb s
  | .shl rd ra n => Sys2Proof.Machine.execShl rd ra n s
  | .shr rd ra n => Sys2Proof.Machine.execShr rd ra n s
  | .cvti32 ra => Sys2Proof.Machine.execCvti32 ra s
  | .cvtu32 ra => Sys2Proof.Machine.execCvtu32 ra s
  | .cvti64 ra => Sys2Proof.Machine.execCvti64 ra s
  | .cvtu64 ra => Sys2Proof.Machine.execCvtu64 ra s
  | .render ra spaced => Sys2Proof.Machine.execRender ra spaced s
  | .rdw ra => Sys2Proof.Machine.execRdw ra s

end Sys2Proof.Machine
end

