-- ==== Sys2Proof/Machine/Fetch.lean ====
section
/-! DEFINITION. From the command port to the meaning: decode the sampled command word and execute it
(spec/30_encoding.md R53, 60_exceptions.md R131). -/

namespace Sys2Proof.Machine

/-- Decode the command on the port and execute it, or raise IllegalCommand before any register is read
(30_encoding.md R53, 60_exceptions.md R131). -/
def runPort (s : State) : Host.Outcome State Fault Refusal :=
  match decode s.port.cmd with
  | none => .next (raiseIllegal s)
  | some i => exec i s

/-- The command whose word is the number `w`, with the data that stands on a port already (log 12). -/
def tableCommand (port : Command) (nbits w : Nat) : Command := { port with cmd := tableWord nbits w }

end Sys2Proof.Machine
end

