-- ==== Sys2Proof/Machine/Step.lean ====
section
/-! DEFINITION. One step: the host's next event is taken. The hardware fetches nothing (spec/10_state.md R20); the
command executed next is the one the host presents next. -/

namespace Sys2Proof.Machine

/-- One step (20_memory.md R38; 60_exceptions.md R142; 70_reset_and_hazards.md R144, R145). -/
def step (s : State) : Host.Outcome State Fault Refusal :=
  match s.pending with
  | [] => .next (idle s)
  | .reset abandoned :: rest => .next (applyReset abandoned rest)
  | .command c :: rest => runPort (acceptCommand s c rest)

/-- The state in which the host is about to present the command whose word is the number `w`, before everything it had
planned. The data beside the word is what stands on the port already, so nothing else changes (log 12). -/
def State.withFetchWord (s : State) (nbits w : Nat) : State :=
  { s with pending := .command (tableCommand s.port nbits w) :: s.pending }

end Sys2Proof.Machine
end

