-- ==== Sys2Proof/Machine/HostView.lean ====
section
/-! DEFINITION. The host's side of the ports: the payloads of the written form (spec/30_encoding.md R57), the readings
the host gives a result (46_conversion.md R118), the written form itself, and the pseudo-commands (30_encoding.md R58).
No command and no step reads anything of this file. -/

namespace Sys2Proof.Machine

/-! ### Payloads and readings -/

/-- The payload of an N-bit integer load: `din[N-1:0] = v mod 2^N`, zeros above (30_encoding.md R57). -/
def payload (N : Nat) (v : Int) : BitVec 256 := (BitVec.ofInt N v).setWidth 256

/-- The command the host presents for an instruction, with its data (00_scope.md R12). -/
def present (i : Instr) (din : BitVec 256) (tin : List Byte) : Command where
  cmd := encode i
  din := din
  tin := tin

/-- The integer CVTI32 delivers: `sext_32(dout[31:0])` (46_conversion.md R119). -/
def deliveredI32 (r : Response) : Int := (r.dout.extractLsb' 0 32).toInt

/-- The integer CVTU32 delivers: `zext_32(dout[31:0])` (46_conversion.md R120). -/
def deliveredU32 (r : Response) : Int := (r.dout.extractLsb' 0 32).toNat

/-- The integer CVTI64 delivers: `sext_64(dout[63:0])` (46_conversion.md R121). -/
def deliveredI64 (r : Response) : Int := (r.dout.extractLsb' 0 64).toInt

/-- The integer CVTU64 delivers: `zext_64(dout[63:0])` (46_conversion.md R122). -/
def deliveredU64 (r : Response) : Int := (r.dout.extractLsb' 0 64).toNat

/-! ### Written form -/

/-- `w0` to `w7` (30_encoding.md R57). -/
def regText (r : Reg) : String := "w" ++ toString r.val

/-- A number as `0x` and `digits` upper-case hexadecimal digits (30_encoding.md R57). -/
def hexText (digits v : Nat) : String :=
  let ds := (Nat.toDigits 16 v).map Char.toUpper
  "0x" ++ String.ofList (List.replicate (digits - ds.length) '0' ++ ds)

/-- A text payload in double quotes (30_encoding.md R57). -/
def quotedText (t : List Byte) : String := "\"" ++ String.ofList (t.map fun b => Char.ofNat b.toNat) ++ "\""

/-- The written form of an instruction presented with the data of `c`; a pattern on `din` is written as a number
(30_encoding.md R57). -/
def written (i : Instr) (c : Command) : String :=
  let head := i.mnemonic ++ " "
  match i with
  | .flip rd ra => head ++ regText rd ++ ", " ++ regText ra
  | .ldi32 rd => head ++ regText rd ++ ", #" ++ toString (c.din.extractLsb' 0 32).toInt
  | .ldu32 rd => head ++ regText rd ++ ", #" ++ toString (c.din.extractLsb' 0 32).toNat
  | .ldi64 rd => head ++ regText rd ++ ", #" ++ toString (c.din.extractLsb' 0 64).toInt
  | .ldu64 rd => head ++ regText rd ++ ", #" ++ toString (c.din.extractLsb' 0 64).toNat
  | .ldf64 rd => head ++ regText rd ++ ", #" ++ hexText 16 (c.din.extractLsb' 0 64).toNat
  | .ldlit rd => head ++ regText rd ++ ", " ++ quotedText c.tin
  | .mov rd ra => head ++ regText rd ++ ", " ++ regText ra
  | .ldw rd => head ++ regText rd ++ ", #" ++ hexText 64 c.din.toNat
  | .neg rd ra => head ++ regText rd ++ ", " ++ regText ra
  | .incu rd ra => head ++ regText rd ++ ", " ++ regText ra
  | .decu rd ra => head ++ regText rd ++ ", " ++ regText ra
  | .inci rd ra => head ++ regText rd ++ ", " ++ regText ra
  | .deci rd ra => head ++ regText rd ++ ", " ++ regText ra
  | .add rd ra rb => head ++ regText rd ++ ", " ++ regText ra ++ ", " ++ regText rb
  | .sub rd ra rb => head ++ regText rd ++ ", " ++ regText ra ++ ", " ++ regText rb
  | .mul rd ra rb => head ++ regText rd ++ ", " ++ regText ra ++ ", " ++ regText rb
  | .shl rd ra n => head ++ regText rd ++ ", " ++ regText ra ++ ", #" ++ toString n
  | .shr rd ra n => head ++ regText rd ++ ", " ++ regText ra ++ ", #" ++ toString n
  | .cvti32 ra => head ++ regText ra
  | .cvtu32 ra => head ++ regText ra
  | .cvti64 ra => head ++ regText ra
  | .cvtu64 ra => head ++ regText ra
  | .render ra spaced => head ++ regText ra ++ ", " ++ (if spaced then "1" else "0")
  | .rdw ra => head ++ regText ra

/-! ### Pseudo-commands -/

/-- The source's compound, in-place, postfix and copy forms (30_encoding.md R58). -/
inductive Pseudo where
  /-- `a += b`. -/
  | addAssign (a b : Reg)
  /-- `a -= b`. -/
  | subAssign (a b : Reg)
  /-- `a *= b`. -/
  | mulAssign (a b : Reg)
  /-- `a <<= n`. -/
  | shlAssign (a : Reg) (n : Int)
  /-- `a >>= n`. -/
  | shrAssign (a : Reg) (n : Int)
  /-- `a.invert()` in place. -/
  | invert (a : Reg)
  /-- `a.increment()` in place. -/
  | increment (a : Reg)
  /-- `a.decrement()` in place. -/
  | decrement (a : Reg)
  /-- `++a`. -/
  | preInc (a : Reg)
  /-- `--a`. -/
  | preDec (a : Reg)
  /-- `a.flip()` in place. -/
  | flipInPlace (a : Reg)
  /-- `a++` with the old value wanted in `t`. -/
  | postInc (t a : Reg)
  /-- `a--` with the old value wanted in `t`. -/
  | postDec (t a : Reg)
  /-- `b = a`. -/
  | copy (b a : Reg)
  deriving DecidableEq, Repr

/-- The commands a pseudo-command stands for (30_encoding.md R58). -/
def Pseudo.expand : Pseudo → List Instr
  | .addAssign a b => [.add a a b]
  | .subAssign a b => [.sub a a b]
  | .mulAssign a b => [.mul a a b]
  | .shlAssign a n => [.shl a a n]
  | .shrAssign a n => [.shr a a n]
  | .invert a => [.neg a a]
  | .increment a => [.incu a a]
  | .decrement a => [.decu a a]
  | .preInc a => [.inci a a]
  | .preDec a => [.deci a a]
  | .flipInPlace a => [.flip a a]
  | .postInc t a => [.mov t a, .inci a a]
  | .postDec t a => [.mov t a, .deci a a]
  | .copy b a => [.mov b a]

/-- Commands executed one after the other, each with the data that stands on the port (20_memory.md R38). -/
def execAll : List Instr → State → Host.Outcome State Fault Refusal
  | [], s => .next s
  | i :: rest, s =>
    match exec i s with
    | .next t => execAll rest t
    | .fault r => .fault r
    | .refused r => .refused r

end Sys2Proof.Machine
end

