-- ==== Sys2Proof/Safety.lean ====
section
/-! DEFINITION. The terms the statements use: what a command may read and write (spec/10_state.md R18, 20_memory.md
R33, R35), what it leaves alone, what a response may hold (60_exceptions.md R130), which command words are illegal
(30_encoding.md R54), and a whole transaction as a function of the registers and the command (20_memory.md R38). -/

namespace Sys2Proof.Machine

/-- The registers a command reads (10_state.md R18). -/
def sources : Instr → List Reg
  | .flip _ ra => [ra]
  | .ldi32 _ => []
  | .ldu32 _ => []
  | .ldi64 _ => []
  | .ldu64 _ => []
  | .ldf64 _ => []
  | .ldlit _ => []
  | .mov _ ra => [ra]
  | .ldw _ => []
  | .neg _ ra => [ra]
  | .incu _ ra => [ra]
  | .decu _ ra => [ra]
  | .inci _ ra => [ra]
  | .deci _ ra => [ra]
  | .add _ ra rb => [ra, rb]
  | .sub _ ra rb => [ra, rb]
  | .mul _ ra rb => [ra, rb]
  | .shl _ ra _ => [ra]
  | .shr _ ra _ => [ra]
  | .cvti32 ra => [ra]
  | .cvtu32 ra => [ra]
  | .cvti64 ra => [ra]
  | .cvtu64 ra => [ra]
  | .render ra _ => [ra]
  | .rdw ra => [ra]

/-- The register a command writes, if it writes one (10_state.md R18). -/
def dest : Instr → Option Reg
  | .flip rd _ => some rd
  | .ldi32 rd => some rd
  | .ldu32 rd => some rd
  | .ldi64 rd => some rd
  | .ldu64 rd => some rd
  | .ldf64 rd => some rd
  | .ldlit rd => some rd
  | .mov rd _ => some rd
  | .ldw rd => some rd
  | .neg rd _ => some rd
  | .incu rd _ => some rd
  | .decu rd _ => some rd
  | .inci rd _ => some rd
  | .deci rd _ => some rd
  | .add rd _ _ => some rd
  | .sub rd _ _ => some rd
  | .mul rd _ _ => some rd
  | .shl rd _ _ => some rd
  | .shr rd _ _ => some rd
  | .cvti32 _ => none
  | .cvtu32 _ => none
  | .cvti64 _ => none
  | .cvtu64 _ => none
  | .render _ _ => none
  | .rdw _ => none

/-- How many low bits of `din` a command uses; it ignores the others (20_memory.md R33). -/
def dinBitsUsed : Instr → Nat
  | .flip _ _ => 0
  | .ldi32 _ => 32
  | .ldu32 _ => 32
  | .ldi64 _ => 64
  | .ldu64 _ => 64
  | .ldf64 _ => 64
  | .ldlit _ => 0
  | .mov _ _ => 0
  | .ldw _ => 256
  | .neg _ _ => 0
  | .incu _ _ => 0
  | .decu _ _ => 0
  | .inci _ _ => 0
  | .deci _ _ => 0
  | .add _ _ _ => 0
  | .sub _ _ _ => 0
  | .mul _ _ _ => 0
  | .shl _ _ _ => 0
  | .shr _ _ _ => 0
  | .cvti32 _ => 0
  | .cvtu32 _ => 0
  | .cvti64 _ => 0
  | .cvtu64 _ => 0
  | .render _ _ => 0
  | .rdw _ => 0

/-- Whether a command reads `tin`: only LDLIT does (20_memory.md R35). -/
def usesTin : Instr → Bool
  | .flip _ _ => false
  | .ldi32 _ => false
  | .ldu32 _ => false
  | .ldi64 _ => false
  | .ldu64 _ => false
  | .ldf64 _ => false
  | .ldlit _ => true
  | .mov _ _ => false
  | .ldw _ => false
  | .neg _ _ => false
  | .incu _ _ => false
  | .decu _ _ => false
  | .inci _ _ => false
  | .deci _ _ => false
  | .add _ _ _ => false
  | .sub _ _ _ => false
  | .mul _ _ _ => false
  | .shl _ _ _ => false
  | .shr _ _ _ => false
  | .cvti32 _ => false
  | .cvtu32 _ => false
  | .cvti64 _ => false
  | .cvtu64 _ => false
  | .render _ _ => false
  | .rdw _ => false

/-- `t` is `s` after a command that wrote `v` to `w[rd]` and did nothing else: every other register, the port and the
host's list are as before, and the response is OK with `dout = 0` and empty `tout` (10_state.md R18, 20_memory.md R34,
R36). -/
def WroteOnly (s t : State) (rd : Reg) (v : Word) : Prop :=
  readReg t rd = v ∧ (∀ r, r ≠ rd → readReg t r = readReg s r) ∧
  t.rsp = { valid := true, status := statusOk, dout := 0#256, tout := [] } ∧
  t.port = s.port ∧ t.pending = s.pending

/-- `t` is `s` after a command that gave an OK response and did nothing else: every register, the port and the host's
list are as before (10_state.md R18, 46_conversion.md R127). -/
def AnsweredOnly (s t : State) (dout : BitVec 256) (tout : List Byte) : Prop :=
  (∀ r, readReg t r = readReg s r) ∧
  t.rsp = { valid := true, status := statusOk, dout := dout, tout := tout } ∧
  t.port = s.port ∧ t.pending = s.pending

/-- What the response port may show: status OK or ILLEGAL, never a reserved code; nothing with ILLEGAL; nothing after
reset; and a text only from RENDER, 256 or 258 characters `'0'`, `'1'` or space, with `dout = 0`
(60_exceptions.md R130, R131; 20_memory.md R34, R36; 70_reset_and_hazards.md R144). -/
abbrev ResponseOk (r : Response) : Prop :=
  (r.status = statusOk ∨ r.status = statusIllegal) ∧
  (r.status = statusIllegal ∨ r.valid = false → r.dout = 0#256 ∧ r.tout = []) ∧
  (r.valid = false → r.status = statusOk) ∧
  (r.tout ≠ [] → r.dout = 0#256 ∧ (r.tout.length = 256 ∨ r.tout.length = 258) ∧
    ∀ ch ∈ r.tout, ch = 0x30#8 ∨ ch = 0x31#8 ∨ ch = 0x20#8)

/-- The mask of a format's must-be-zero fields, the complement of what the format uses (30_encoding.md R44 to R48).
RENDER alone of format RD uses `m`. -/
def mustBeZero (op : Nat) : BitVec 32 :=
  if op = 0x15 ∨ op = 0x16 ∨ op = 0x17 then 0x0001FFFF
  else if op = 0x01 ∨ op = 0x0E ∨ (0x10 ≤ op ∧ op ≤ 0x14) then 0x000FFFFF
  else if op = 0x18 ∨ op = 0x19 then 0x000F0000
  else if 0x08 ≤ op ∧ op ≤ 0x0F then 0x007FFFFF
  else if op = 0x24 then 0x038EFFFF
  else 0x038FFFFF

/-- The opcodes outside the map: `0x00`, `0x02` to `0x07`, `0x1A` to `0x1F`, and `0x26` and above
(30_encoding.md R54 a). -/
abbrev UnassignedOp (op : Nat) : Prop :=
  op = 0 ∨ (0x02 ≤ op ∧ op ≤ 0x07) ∨ (0x1A ≤ op ∧ op ≤ 0x1F) ∨ 0x26 ≤ op

/-- The illegal command words: (a) the opcodes outside the map; (b) a 1 in a must-be-zero field
(30_encoding.md R54). -/
abbrev IllegalWord (c : BitVec 32) : Prop :=
  UnassignedOp (opField c).toNat ∨ c &&& mustBeZero (opField c).toNat ≠ 0

/-- One transaction as a function of the registers and the command alone: the registers after it and its response
(00_scope.md R12, 20_memory.md R38). -/
def transact (regs : Vector Word 8) (c : Command) : Vector Word 8 × Response :=
  match runPort { regs := regs, port := c, rsp := Response.afterReset, pending := [] } with
  | .next t => (t.regs, t.rsp)
  | .fault _ => (regs, Response.afterReset)
  | .refused _ => (regs, Response.afterReset)

end Sys2Proof.Machine
end

