-- ==== Sys2Proof/Certificates/Slice0/Obligations.lean ====
section
/-! DEFINITION. The statements for the provers. Each docstring names the rule of spec/ it formalises. A next state is
always named `t`; `WroteOnly`, `AnsweredOnly`, `ResponseOk`, `IllegalWord` and `transact` are in Safety.lean. -/

open Sys2Proof Sys2Proof.Machine

/-! ### Encoding -/

/-- The worked encodings of spec/30_encoding.md R59 decode to the commands written beside them, and its two illegal
words to none. The rule is marked [derived]: the spec's own inference. -/
def Obligations.SpecWordsDecode : Prop :=
  decode 0x55940000#32 = some (.add 3 1 2) ∧ decode 0x40600000#32 = some (.neg 0 6) ∧
  decode 0x67F0FFFD#32 = some (.shr 7 7 (-3)) ∧ decode 0x29000000#32 = some (.ldi64 2) ∧
  decode 0x80400000#32 = some (.cvti32 4) ∧ decode 0x90510000#32 = some (.render 5 true) ∧
  decode 0x55940001#32 = none ∧ decode 0x00000000#32 = none

/-- Decoding the encoding of any well-formed command gives the command back, with every operand at every value
(30_encoding.md R43 to R50, R52, R53). -/
def Obligations.DecodeOfEncodeIsTheCommand : Prop :=
  ∀ i : Instr, i.wellFormed = true → decode (encode i) = some i

/-- A command word that decodes is the encoding of the one well-formed command it decodes to: one word, one command
(30_encoding.md R53, R49). -/
def Obligations.DecodedWordIsItsEncoding : Prop :=
  ∀ (c : BitVec 32) (i : Instr), decode c = some i → i.wellFormed = true ∧ encode i = c

/-- The decoder refuses exactly the words that 30_encoding.md R54 lists as illegal. -/
def Obligations.DecoderRefusesExactlyIllegalWords : Prop :=
  ∀ c : BitVec 32, decode c = none ↔ IllegalWord c

/-- No command word selects two rows of the opcode map by `c AND mask = match`, and the row a decodable word selects
names the command it decodes to (30_encoding.md R52). -/
def Obligations.OpcodeRowsAreDisjoint : Prop :=
  ∀ c : BitVec 32,
    (∀ r₁ ∈ opcodeTable, ∀ r₂ ∈ opcodeTable,
      c &&& r₁.mask = r₁.match32 → c &&& r₂.mask = r₂.match32 → r₁.mnemonic = r₂.mnemonic) ∧
    (∀ i, decode c = some i → ∃ r ∈ opcodeTable, c &&& r.mask = r.match32 ∧ r.mnemonic = i.mnemonic)

/-! ### Steps -/

/-- A step at a state whose next host event is a command runs the decoded instruction, on the state whose port holds
that command and whose host list is one shorter (30_encoding.md R53, 20_memory.md R38, 70_reset_and_hazards.md R149). -/
def Obligations.StepRunsDecodedCommand : Prop :=
  ∀ (s : State) (c : Command) (rest : List HostEvent) (i : Instr),
    s.pending = .command c :: rest → decode c.cmd = some i →
      step s = exec i { s with port := c, pending := rest }

/-- An illegal command word gives status ILLEGAL, `dout = 0`, an empty `tout` and no change to any register, whatever
`din` and `tin` hold; every other word gives status OK (30_encoding.md R54, 60_exceptions.md R131). -/
def Obligations.IllegalCommandIsAnsweredAndChangesNothing : Prop :=
  ∀ (s : State) (c : Command) (rest : List HostEvent), s.pending = .command c :: rest →
    ∃ t, step s = .next t ∧
      (IllegalWord c.cmd →
        t.rsp.status = 1#2 ∧ t.rsp.dout = 0#256 ∧ t.rsp.tout = [] ∧ ∀ r, readReg t r = readReg s r) ∧
      (¬ IllegalWord c.cmd → t.rsp.status = 0#2)

/-- IllegalCommand is not sticky: the command after an illegal one runs, to the last bit of the state, as if the
illegal one had never been presented; that command may be illegal itself (60_exceptions.md R135). -/
def Obligations.IllegalCommandIsNotSticky : Prop :=
  ∀ (s : State) (bad c : Command) (rest : List HostEvent),
    s.pending = .command bad :: .command c :: rest → IllegalWord bad.cmd →
      core.run 2 s = step { s with pending := .command c :: rest }

/-- `rst` sampled high, with or without a command in progress: every register becomes the zero word, the command is
abandoned without a response, the response outputs take their reset values (70_reset_and_hazards.md R144). -/
def Obligations.ResetClearsRegistersAndResponse : Prop :=
  ∀ (s : State) (abandoned : Option Command) (rest : List HostEvent), s.pending = .reset abandoned :: rest →
    ∃ t, step s = .next t ∧ (∀ r, readReg t r = 0#256) ∧
      t.rsp = { valid := false, status := 0#2, dout := 0#256, tout := [] }

/-- After reset every register holds the zero word and the response outputs are OK, 0 and empty (10_state.md R27). -/
def Obligations.ResetStateIsAllZero : Prop :=
  (∀ r, readReg State.reset r = 0#256) ∧
  State.reset.rsp.status = 0#2 ∧ State.reset.rsp.dout = 0#256 ∧ State.reset.rsp.tout = []

/-- With nothing presented the hardware is idle and holds its registers (60_exceptions.md R142). That the model also
leaves its response port as it was is the model's choice (log 3). -/
def Obligations.IdleHoldsTheState : Prop :=
  ∀ s : State, s.pending = [] → step s = .next s

/-- Every step answers a next state: no step faults and none refuses. A step that takes a command gives the one response
that the command has from the registers, whatever response stood on the port before, and one that takes a reset gives
none (00_scope.md R12, 60_exceptions.md R129, 70_reset_and_hazards.md R144, R152; termination is the spec's own
inference, marked [derived] in R152). That the command stays on the port, that the host's list loses just its first
event, and that the response stands in a field with a sticky `valid` is the model's form (logs 1, 2, 4). -/
def Obligations.EveryStepAnswersANextState : Prop :=
  ∀ s : State, ∃ t, step s = .next t ∧
    (∀ c rest, s.pending = .command c :: rest →
      t.rsp.valid = true ∧ t.rsp = (transact s.regs c).2 ∧ t.port = c ∧ t.pending = rest ∧
      ∀ x : Response, step { s with rsp := x } = .next t) ∧
    (∀ a rest, s.pending = .reset a :: rest → t.rsp.valid = false ∧ t.pending = rest)

/-- Only RENDER produces a text: 256 characters, or 258 in the spaced mode. Every other command and every illegal command
gives the empty text (20_memory.md R36). -/
def Obligations.OnlyRenderGivesText : Prop :=
  ∀ (s : State) (c : Command) (rest : List HostEvent), s.pending = .command c :: rest →
    ∃ t, step s = .next t ∧
      (∀ ra, decode c.cmd = some (.render ra false) → t.rsp.tout.length = 256) ∧
      (∀ ra, decode c.cmd = some (.render ra true) → t.rsp.tout.length = 258) ∧
      ((∀ ra m, decode c.cmd ≠ some (.render ra m)) → t.rsp.tout = [])

/-- The response port keeps its form over every step from every state that has it: status OK or ILLEGAL, nothing beside
ILLEGAL, texts only of 256 or 258 legal characters (60_exceptions.md R130, R131; 20_memory.md R34, R36). The clauses on
`valid = false` rest on the model's reading that `valid` stays true from a response to the next reset (log 4, DEDUCED),
and that an idle step keeps the form rests on its holding the response port (log 3, DESIGN CHOICE). -/
def Obligations.StepKeepsResponseForm : Prop :=
  ∀ s t : State, ResponseOk s.rsp → step s = .next t → ResponseOk t.rsp

/-- The response port has its form after reset (70_reset_and_hazards.md R144). -/
def Obligations.ResetHasResponseForm : Prop := ResponseOk State.reset.rsp

/-- Commands take effect one at a time in the order presented: running a command list is the fold of the one-command
transaction over it (20_memory.md R38), and the response after it is the last command's (00_scope.md R12). That a response
stands in a field of the state after its command, with its `valid` bit, is the model's form and no rule's (log 4). -/
def Obligations.RunIsFoldOfTransactions : Prop :=
  ∀ (s : State) (cs : List Command) (c : Command) (rest : List HostEvent),
    s.pending = (cs ++ [c]).map .command ++ rest →
      ∃ t, core.run (cs.length + 1) s = .next t ∧
        (t.regs, t.rsp) = transact (cs.foldl (fun regs d => (transact regs d).1) s.regs) c

/-- Every one of the 25 commands completes in every state, writes no register but the one its `rd` names, gives an OK
response, and leaves the port and the host's list alone (10_state.md R18, 60_exceptions.md R129, R130). -/
def Obligations.EveryCommandCompletesAndWritesOnlyItsDestination : Prop :=
  ∀ (i : Instr) (s : State), ∃ t, exec i s = .next t ∧
    (∀ r, dest i ≠ some r → readReg t r = readReg s r) ∧
    t.rsp.valid = true ∧ t.rsp.status = statusOk ∧
    (∀ r, dest i = some r → t.rsp.dout = 0#256 ∧ t.rsp.tout = []) ∧
    t.port = s.port ∧ t.pending = s.pending

/-- No command's effect depends on anything but its own command word, the bits of `din` it uses, `tin` if it is LDLIT,
and the registers it reads: two states that agree on those get the same response and the same word in the destination
(10_state.md R21, 20_memory.md R33, R35). -/
def Obligations.EffectDependsOnlyOnOperands : Prop :=
  ∀ (i : Instr) (s₁ s₂ : State),
    (∀ r ∈ sources i, readReg s₁ r = readReg s₂ r) →
    s₁.port.din.toNat % 2 ^ dinBitsUsed i = s₂.port.din.toNat % 2 ^ dinBitsUsed i →
    (usesTin i = true → s₁.port.tin = s₂.port.tin) →
      ∃ t₁ t₂, exec i s₁ = .next t₁ ∧ exec i s₂ = .next t₂ ∧ t₁.rsp = t₂.rsp ∧
        ∀ r, dest i = some r → readReg t₁ r = readReg t₂ r

/-! ### Storage and copies -/

/-- `get(W, i)` (`getBit`) routes the index to its limb by range, most significant in-limb bit first, and so reads integer bit
`255 - i` of `U` (40_storage.md R60). -/
def Obligations.GetReadsTheRoutedBit : Prop :=
  ∀ (W : Word) (i : BitIdx),
    (i.val < 64 → getBit W i = (limb W .left).getLsbD (63 - i.val % 64)) ∧
    (64 ≤ i.val → i.val < 128 → getBit W i = (limb W .middle).getLsbD (63 - i.val % 64)) ∧
    (128 ≤ i.val → i.val < 192 → getBit W i = (limb W .right).getLsbD (63 - i.val % 64)) ∧
    (192 ≤ i.val → getBit W i = (limb W .fractional).getLsbD (63 - i.val % 64)) ∧
    U W = (limb W .left).toNat * 2 ^ 192 + (limb W .middle).toNat * 2 ^ 128 +
      (limb W .right).toNat * 2 ^ 64 + (limb W .fractional).toNat ∧
    getBit W i = (U W).testBit (255 - i.val)

/-- `set(W, i, b)` (`setBit`) replaces the bit at its index and no other, and its effect on `U` is the one the rule gives
(40_storage.md R61). -/
def Obligations.SetReplacesExactlyOneBit : Prop :=
  ∀ (W : Word) (i : BitIdx) (b : Bool),
    (∀ j, getBit (setBit W i b) j = if j = i then b else getBit W j) ∧
    (U (setBit W i b) : Int) =
      U W - ((U W).testBit (255 - i.val)).toNat * 2 ^ (255 - i.val) + b.toNat * 2 ^ (255 - i.val)

/-- `flip(W)` (`flipBits`) inverts every one of the 256 bits, `U(flip(W)) = 2^256 - 1 - U(W)`, and is its own inverse
(40_storage.md R62). That it is its own inverse is the spec's own inference, marked [derived] in R62. -/
def Obligations.FlipInvertsEveryBit : Prop :=
  ∀ W : Word, (∀ i, getBit (flipBits W) i = !getBit W i) ∧ U (flipBits W) = 2 ^ 256 - 1 - U W ∧ flipBits (flipBits W) = W

/-- FLIP, MOV, LDW and RDW complete: FLIP writes the complement, MOV and LDW copy all 256 bits, RDW hands them out
(40_storage.md R64, 41_construction.md R77, R78, 46_conversion.md R126). -/
def Obligations.FlipAndCopyCommandsComplete : Prop :=
  ∀ (s : State) (rd ra : Reg),
    (∃ t v, exec (.flip rd ra) s = .next t ∧ WroteOnly s t rd v ∧ U v + U (readReg s ra) = 2 ^ 256 - 1) ∧
    (∃ t, exec (.mov rd ra) s = .next t ∧ WroteOnly s t rd (readReg s ra)) ∧
    (∃ t, exec (.ldw rd) s = .next t ∧ WroteOnly s t rd s.port.din) ∧
    (∃ t, exec (.rdw ra) s = .next t ∧ AnsweredOnly s t (readReg s ra) [])

/-! ### Construction -/

/-- LDI32 and LDI64 complete with `S(w[rd]) = v * 2^64` for the signed integer `v` on `din`, the most negative one
included (41_construction.md R66, R68). The closed form is the spec's own inference, marked [derived] in R66 and
R68. -/
def Obligations.SignedLoadsAreExact : Prop :=
  ∀ (s : State) (rd : Reg),
    (∃ t v, exec (.ldi32 rd) s = .next t ∧ WroteOnly s t rd v ∧
      S v = (s.port.din.extractLsb' 0 32).toInt * 2 ^ 64) ∧
    (∃ t v, exec (.ldi64 rd) s = .next t ∧ WroteOnly s t rd v ∧
      S v = (s.port.din.extractLsb' 0 64).toInt * 2 ^ 64)

/-- LDU32 and LDU64 complete with `U(w[rd]) = v * 2^64` for the unsigned integer `v` on `din`
(41_construction.md R67, R69). -/
def Obligations.UnsignedLoadsAreExact : Prop :=
  ∀ (s : State) (rd : Reg),
    (∃ t v, exec (.ldu32 rd) s = .next t ∧ WroteOnly s t rd v ∧
      U v = s.port.din.toNat % 2 ^ 32 * 2 ^ 64) ∧
    (∃ t v, exec (.ldu64 rd) s = .next t ∧ WroteOnly s t rd v ∧
      U v = s.port.din.toNat % 2 ^ 64 * 2 ^ 64)

/-- LDF64 completes with the word of `floor(m * 2^(e + 12)) mod 2^256`, negated when the sign bit is set, for every
binary64 pattern; here `e + 12 = E - 1011` for the biased exponent `E` (41_construction.md R70 to R72). The closed
form is the spec's own inference (R72 is marked [derived]); the binary64 layout is the spec's general knowledge (log
13). -/
def Obligations.DoubleLoadClosedForm : Prop :=
  ∀ (s : State) (rd : Reg) (d E m mag : Nat),
    d = s.port.din.toNat % 2 ^ 64 → E = d / 2 ^ 52 % 2 ^ 11 → m = 2 ^ 52 + d % 2 ^ 52 →
    mag = (if 1011 ≤ E then m * 2 ^ (E - 1011) else m / 2 ^ (1011 - E)) →
      ∃ t v, exec (.ldf64 rd) s = .next t ∧ WroteOnly s t rd v ∧
        v = if d / 2 ^ 63 = 1 then word (-(mag : Int)) else word mag

/-- LDF64 gives the zero word for every zero, subnormal, infinity and NaN, for every magnitude below 2^-64 and for every
finite input with `e >= 244`, whatever the sign (41_construction.md R73). R73 is marked [derived]: the spec's own
inference. -/
def Obligations.DoubleLoadOutOfRangeGivesZero : Prop :=
  ∀ (s : State) (rd : Reg) (E : Nat),
    E = s.port.din.toNat / 2 ^ 52 % 2 ^ 11 → E ≤ 958 ∨ 1267 ≤ E →
      ∃ t, exec (.ldf64 rd) s = .next t ∧ WroteOnly s t rd 0#256

/-- LDF64 is exact for unbiased exponents -12 to 190: the value of the word is the value of the double
(41_construction.md R72 a, R73). R72 and R73 are marked [derived]: the spec's own inferences. -/
def Obligations.DoubleLoadIsExactInRange : Prop :=
  ∀ (s : State) (rd : Reg) (d E m : Nat),
    d = s.port.din.toNat % 2 ^ 64 → E = d / 2 ^ 52 % 2 ^ 11 → m = 2 ^ 52 + d % 2 ^ 52 →
    1011 ≤ E → E ≤ 1213 →
      ∃ t v, exec (.ldf64 rd) s = .next t ∧ WroteOnly s t rd v ∧
        V v = (if d / 2 ^ 63 = 1 then -1 else 1) * (m : ℚ) * (2 : ℚ) ^ ((E : Int) - 1075)

/-- LDLIT completes: without the two prefix bytes the word is zero; with them word bit `255 - j` is 1 exactly when
character `j` from the end, after the prefix and within 256, is `'1'` (41_construction.md R74). -/
def Obligations.LiteralLoadMapsCharactersRightAligned : Prop :=
  ∀ (s : State) (rd : Reg), ∃ t v, exec (.ldlit rd) s = .next t ∧ WroteOnly s t rd v ∧
    ((¬ ∃ digits, s.port.tin = 0x30#8 :: 0x62#8 :: digits) → v = 0#256) ∧
    (∀ digits, s.port.tin = 0x30#8 :: 0x62#8 :: digits →
      ∀ i : BitIdx, getBit v i = decide (digits.reverse[255 - i.val]? = some 0x31#8))

/-- The plain rendering of a register with `"0b"` before it, given to LDLIT in any state, reproduces the register's word
(46_conversion.md R125, 41_construction.md R74). The sentence of R125 on this round trip is marked [derived]: the
spec's own inference. -/
def Obligations.LiteralOfRenderingIsTheWord : Prop :=
  ∀ (s u : State) (ra rd : Reg), ∃ t, exec (.render ra false) s = .next t ∧
    ∃ u', exec (.ldlit rd) { u with port := { u.port with tin := 0x30#8 :: 0x62#8 :: t.rsp.tout } } = .next u' ∧
      readReg u' rd = readReg s ra

/-! ### Negation and unit steps -/

/-- INCU, DECU, INCI and DECI complete with `U` stepped by 1 or by 2^64 modulo 2^256; INCI and DECI leave the fractional
limb as it was (42_negate_increment.md R82 to R86). The closed forms are the spec's own inference (R82 is marked
[derived]). -/
def Obligations.UnitStepsClosedForm : Prop :=
  ∀ (s : State) (rd ra : Reg),
    (∃ t v, exec (.incu rd ra) s = .next t ∧ WroteOnly s t rd v ∧ U v = (U (readReg s ra) + 1) % 2 ^ 256) ∧
    (∃ t v, exec (.decu rd ra) s = .next t ∧ WroteOnly s t rd v ∧
      U v = (U (readReg s ra) + (2 ^ 256 - 1)) % 2 ^ 256) ∧
    (∃ t v, exec (.inci rd ra) s = .next t ∧ WroteOnly s t rd v ∧
      U v = (U (readReg s ra) + 2 ^ 64) % 2 ^ 256 ∧ U v % 2 ^ 64 = U (readReg s ra) % 2 ^ 64) ∧
    (∃ t v, exec (.deci rd ra) s = .next t ∧ WroteOnly s t rd v ∧
      U v = (U (readReg s ra) + (2 ^ 256 - 2 ^ 64)) % 2 ^ 256 ∧ U v % 2 ^ 64 = U (readReg s ra) % 2 ^ 64)

/-- The ripple scans never write a word bit with index above their start; they clear (set) bits up to the first 0-bit
(1-bit), set (clear) that one and leave every bit past it alone; with no such bit they clear (set) everything up to
index 0 (42_negate_increment.md R80, R81). -/
def Obligations.RippleScanStopsAtFirstFreeBit : Prop :=
  ∀ (W : Word) (p i : BitIdx),
    (p < i → getBit (incFrom W p) i = getBit W i ∧ getBit (decFrom W p) i = getBit W i) ∧
    (∀ q, q ≤ p → getBit W q = false → (∀ j, q < j → j ≤ p → getBit W j = true) →
      getBit (incFrom W p) q = true ∧ (q < i → i ≤ p → getBit (incFrom W p) i = false) ∧
      (i < q → getBit (incFrom W p) i = getBit W i)) ∧
    (∀ q, q ≤ p → getBit W q = true → (∀ j, q < j → j ≤ p → getBit W j = false) →
      getBit (decFrom W p) q = false ∧ (q < i → i ≤ p → getBit (decFrom W p) i = true) ∧
      (i < q → getBit (decFrom W p) i = getBit W i)) ∧
    ((∀ j, j ≤ p → getBit W j = true) → i ≤ p → getBit (incFrom W p) i = false) ∧
    ((∀ j, j ≤ p → getBit W j = false) → i ≤ p → getBit (decFrom W p) i = true)

/-- NEG completes with `U(w[rd]) = (2^256 - U(w[ra])) mod 2^256`, and `S` negated for every word but the most negative
one, which is its own negation (42_negate_increment.md R88, R89). R88 is marked [derived]: the spec's own inference. -/
def Obligations.NegateClosedForm : Prop :=
  ∀ (s : State) (rd ra : Reg), ∃ t v, exec (.neg rd ra) s = .next t ∧ WroteOnly s t rd v ∧
    U v = (2 ^ 256 - U (readReg s ra)) % 2 ^ 256 ∧
    (U (readReg s ra) ≠ 2 ^ 255 → S v = -S (readReg s ra)) ∧
    (U (readReg s ra) = 2 ^ 255 → v = readReg s ra)

/-- The source's laws: double negation is the identity, a word plus its negation is zero, and each step down undoes the
step up and the reverse, at both resolutions (42_negate_increment.md R91). R91 marks them [derived]: the spec's own
inference. -/
def Obligations.NegationAndStepLaws : Prop :=
  ∀ a : Word, negate (negate a) = a ∧ add a (negate a) = 0#256 ∧
    incFrom (decFrom a 255) 255 = a ∧ decFrom (incFrom a 255) 255 = a ∧
    incFrom (decFrom a 191) 191 = a ∧ decFrom (incFrom a 191) 191 = a

/-! ### Addition and subtraction -/

/-- The two disjuncts of the carry test are never both true and together are the exact carry `a + b + c >= 2^64`; the
fractional limb, which has no lower limb, is asked only without a pending carry (43_add_sub.md R94). The exact carry
is the spec's own inference, marked [derived] in R94. -/
def Obligations.CarryOutIsExact : Prop :=
  ∀ (L : Limb) (a b : LimbWord) (c : Bool), (L = .fractional → c = false) →
    (carryOut L a b c = true ↔ 2 ^ 64 ≤ a.toNat + b.toNat + c.toNat) ∧
    ¬ (carryD1 a b = true ∧ carryD2 L a b c = true)

/-- ADD completes with `U(w[rd]) = (U(w[ra]) + U(w[rb])) mod 2^256`, for any choice of the three registers
(43_add_sub.md R95, R96). R95 is marked [derived]: the spec's own inference. -/
def Obligations.AddClosedForm : Prop :=
  ∀ (s : State) (rd ra rb : Reg), ∃ t v, exec (.add rd ra rb) s = .next t ∧ WroteOnly s t rd v ∧
    U v = (U (readReg s ra) + U (readReg s rb)) % 2 ^ 256

/-- SUB completes with `U(w[rd]) = (U(w[ra]) - U(w[rb])) mod 2^256`, the most negative subtrahend included
(43_add_sub.md R97, R98). The closed form is the spec's own inference, marked [derived] in R97. -/
def Obligations.SubClosedForm : Prop :=
  ∀ (s : State) (rd ra rb : Reg), ∃ t v, exec (.sub rd ra rb) s = .next t ∧ WroteOnly s t rd v ∧
    (U v : Int) = ((U (readReg s ra) : Int) - U (readReg s rb)) % 2 ^ 256

/-- The signed readings of a sum and a difference: exact in range, and off by exactly 2^256 outside it, in the direction
of 43_add_sub.md R99. R99 is marked [derived]: the spec's own inference. -/
def Obligations.SignedSumAndDifferenceWrap : Prop :=
  let wrap : Int → Int := fun r => if r < -2 ^ 255 then r + 2 ^ 256 else if 2 ^ 255 ≤ r then r - 2 ^ 256 else r
  ∀ A B : Word, S (add A B) = wrap (S A + S B) ∧ S (sub A B) = wrap (S A - S B)

/-! ### Multiplication -/

/-- MUL completes with the closed form of the shift-and-add loop: the multiplicand times the upper 192 bits of the
multiplier read as unsigned, plus one separately floored right-shifted term for each set fractional bit, modulo
2^256 (44_multiply.md R102 to R105). The closed form is the spec's own inference (R104 is marked [derived]). -/
def Obligations.MulClosedForm : Prop :=
  ∀ (s : State) (rd ra rb : Reg), ∃ t v, exec (.mul rd ra rb) s = .next t ∧ WroteOnly s t rd v ∧
    (U v : Int) =
      ((U (readReg s ra) : Int) * (U (readReg s rb) / 2 ^ 64 : Nat) +
        ∑ j ∈ Finset.range 64,
          if (U (readReg s rb)).testBit j then S (readReg s ra) / 2 ^ (64 - j) else 0) % 2 ^ 256

/-- MUL is the exact product modulo 2^256 when the multiplicand is an integer, for every multiplier, and when the
multiplier is a non-negative integer, for every multiplicand (44_multiply.md R106 a, b). R106 is marked [derived]:
the spec's own inference. -/
def Obligations.MulByIntegerIsExact : Prop :=
  ∀ A B : Word,
    (U A % 2 ^ 64 = 0 → (U (mul A B) : Int) = S A / 2 ^ 64 * S B % 2 ^ 256) ∧
    (U B % 2 ^ 64 = 0 → U B < 2 ^ 255 → U (mul A B) = U A * (U B / 2 ^ 64) % 2 ^ 256)

/-- For a non-negative multiplier with `n` set fractional bits the product falls short of the floor of the exact product
by an integer from 0 to `n - 1`, modulo 2^256 (44_multiply.md R106 c). R106 is marked [derived]: the spec's own
inference. -/
def Obligations.MulShortfallIsBelowFractionalBitCount : Prop :=
  ∀ A B : Word, U B < 2 ^ 255 →
    ∃ k : Nat, k ≤ (List.range 64).countP (fun j => (U B).testBit j) - 1 ∧
      (S A * S B / 2 ^ 64 - U (mul A B)) % 2 ^ 256 = k

/-- A negative multiplier's sign bit counts +2^191 and not -2^191: against the product with the right weight the result
is off by `A.fractional * 2^192` modulo 2^256 (44_multiply.md R106 d, R107 a). R106 and R107 are marked [derived]:
the spec's own inferences. -/
def Obligations.MulNegativeMultiplierQuirk : Prop :=
  ∀ A B : Word, 2 ^ 255 ≤ U B →
    (U (mul A B) : Int) =
      ((U (mul A (word (U B - 2 ^ 255 : Int))) : Int) - S A * 2 ^ 191 + (U A % 2 ^ 64 : Nat) * 2 ^ 192) % 2 ^ 256

/-- Multiplying by zero in either role gives zero, and by one in either role gives the other operand (44_multiply.md
R108). The laws are the spec's own inference, marked [derived] in R108. -/
def Obligations.MulZeroAndOneLaws : Prop :=
  ∀ A : Word, mul A 0#256 = 0#256 ∧ mul 0#256 A = 0#256 ∧
    mul A (word (2 ^ 64)) = A ∧ mul (word (2 ^ 64)) A = A

/-- Multiplication distributes over addition in the three cases of 44_multiply.md R108: an integer multiplicand; integer
multipliers whose unsigned sum does not pass 2^256; and, with the sum as multiplicand, an integer multiplier. The
cases are the spec's own inference, marked [derived] in R108. -/
def Obligations.MulDistributesInTheStatedCases : Prop :=
  ∀ a b c : Word,
    (U a % 2 ^ 64 = 0 → mul a (add b c) = add (mul a b) (mul a c)) ∧
    (U b % 2 ^ 64 = 0 → U c % 2 ^ 64 = 0 → U b + U c < 2 ^ 256 → mul a (add b c) = add (mul a b) (mul a c)) ∧
    (U a % 2 ^ 64 = 0 → mul (add b c) a = add (mul b a) (mul c a))

/-- Multiplication is not commutative: 1.5 times -2 and -2 times 1.5, the first two rows of the table of 44_multiply.md
R107. R107 is marked [derived]: the spec's own inference. -/
def Obligations.MulIsNotCommutative : Prop :=
  mul (word (3 * 2 ^ 63)) (word (-(2 * 2 ^ 64))) = word (-(3 * 2 ^ 64) + 2 ^ 255) ∧
  mul (word (-(2 * 2 ^ 64))) (word (3 * 2 ^ 63)) = word (-(3 * 2 ^ 64))

/-! ### Shifts -/

/-- `shl` moves every bit toward bit 0 by `n` positions and fills with 0; `U` is multiplied by `2^n` modulo 2^256; a
shift by 0 is the identity (45_shift.md R109). The closed form is the spec's own inference, marked [derived] in
R109. -/
def Obligations.ShiftLeftMovesEveryBit : Prop :=
  ∀ (W : Word) (n : Nat),
    (∀ i j : BitIdx, i.val + n = j.val → getBit (shl W n) i = getBit W j) ∧
    (∀ i : BitIdx, 255 < i.val + n → getBit (shl W n) i = false) ∧
    U (shl W n) = U W * 2 ^ n % 2 ^ 256 ∧ shl W 0 = W

/-- `shr` moves every bit toward bit 255 by `n` positions and fills with the original sign bit; `S` is divided by `2^n`
toward minus infinity; a shift by 0 is the identity (45_shift.md R110). The closed form is the spec's own inference,
marked [derived] in R110. -/
def Obligations.ShiftRightMovesEveryBit : Prop :=
  ∀ (W : Word) (n : Nat),
    (∀ i j : BitIdx, j.val + n = i.val → getBit (shr W n) i = getBit W j) ∧
    (∀ i : BitIdx, i.val < n → getBit (shr W n) i = getBit W 0) ∧
    (U (shr W n) : Int) = S W / 2 ^ n % 2 ^ 256 ∧ shr W 0 = W

/-- SHL and SHR complete for every signed amount, a negative one redirecting to the opposite shift by its magnitude
(45_shift.md R111, R113, R114). The closed forms are the spec's own inferences, marked [derived] in R109 and R110. -/
def Obligations.ShiftCommandsCloseOverSignedAmounts : Prop :=
  ∀ (s : State) (rd ra : Reg) (n : Nat),
    (∃ t v, exec (.shl rd ra n) s = .next t ∧ WroteOnly s t rd v ∧ U v = U (readReg s ra) * 2 ^ n % 2 ^ 256) ∧
    (∃ t v, exec (.shl rd ra (-n)) s = .next t ∧ WroteOnly s t rd v ∧ S v = S (readReg s ra) / 2 ^ n) ∧
    (∃ t v, exec (.shr rd ra n) s = .next t ∧ WroteOnly s t rd v ∧ S v = S (readReg s ra) / 2 ^ n) ∧
    (∃ t v, exec (.shr rd ra (-n)) s = .next t ∧ WroteOnly s t rd v ∧ U v = U (readReg s ra) * 2 ^ n % 2 ^ 256)

/-- Amounts of 256 and more are not reduced: left gives the zero word, right gives zero or all ones by the sign; and
amounts of one direction add up (45_shift.md R112, R116). R112 and R116 are marked [derived]: the spec's own
inferences. -/
def Obligations.OverWideAndComposedShifts : Prop :=
  ∀ (W : Word) (n k : Nat),
    shl (shl W n) k = shl W (n + k) ∧ shr (shr W n) k = shr W (n + k) ∧
    (256 ≤ n → shl W n = 0#256 ∧ shr W n = if getBit W 0 = true then BitVec.allOnes 256 else 0#256)

/-- `(a << s) >> s` reproduces `a` exactly when word bits 0 to `s` are all equal, and `(a >> s) << s` exactly when the
low `s` bits are 0, for `0 <= s <= 255` (45_shift.md R116, 90_conflicts.md C7). R116 is marked [derived]: the spec's
own inference. -/
def Obligations.ShiftRoundTripConditions : Prop :=
  ∀ (a : Word) (s : Nat), s ≤ 255 →
    (shr (shl a s) s = a ↔ ∀ i : BitIdx, i.val ≤ s → getBit a i = getBit a 0) ∧
    (shl (shr a s) s = a ↔ ∀ i : BitIdx, 256 - s ≤ i.val → getBit a i = false)

/-! ### Conversion and rendering -/

/-- The four integer conversions complete with the value truncated toward zero, modulo 2^64 or 2^32, in the low bits of
`dout` and zeros above (46_conversion.md R117 to R123, 20_memory.md R34). The closed form is the spec's own
inference (R123 is marked [derived]). -/
def Obligations.ConversionsTruncateTowardZero : Prop :=
  ∀ (s : State) (ra : Reg), ∃ t₁ t₂ t₃ t₄ d32 d64,
    exec (.cvti32 ra) s = .next t₁ ∧ AnsweredOnly s t₁ d32 [] ∧
    exec (.cvtu32 ra) s = .next t₂ ∧ AnsweredOnly s t₂ d32 [] ∧
    exec (.cvti64 ra) s = .next t₃ ∧ AnsweredOnly s t₃ d64 [] ∧
    exec (.cvtu64 ra) s = .next t₄ ∧ AnsweredOnly s t₄ d64 [] ∧
    (d32.toNat : Int) = (S (readReg s ra)).tdiv (2 ^ 64) % 2 ^ 32 ∧
    (d64.toNat : Int) = (S (readReg s ra)).tdiv (2 ^ 64) % 2 ^ 64

/-- Within the range of its target type each conversion delivers the value rounded toward zero (46_conversion.md R119 to
R123). R123 is marked [derived]: the spec's own inference. -/
def Obligations.ConversionsDeliverInRangeValues : Prop :=
  ∀ (s : State) (ra : Reg) (q : Int), q = (S (readReg s ra)).tdiv (2 ^ 64) →
    (-2 ^ 31 ≤ q → q < 2 ^ 31 → ∃ t, exec (.cvti32 ra) s = .next t ∧ deliveredI32 t.rsp = q) ∧
    (0 ≤ q → q < 2 ^ 32 → ∃ t, exec (.cvtu32 ra) s = .next t ∧ deliveredU32 t.rsp = q) ∧
    (-2 ^ 63 ≤ q → q < 2 ^ 63 → ∃ t, exec (.cvti64 ra) s = .next t ∧ deliveredI64 t.rsp = q) ∧
    (0 ≤ q → q < 2 ^ 64 → ∃ t, exec (.cvtu64 ra) s = .next t ∧ deliveredU64 t.rsp = q)

/-- From any state, an integer the host loads with LDI64 and reads back with CVTI64, through the command port, arrives
unchanged (41_construction.md R68, 46_conversion.md R121, R123, 30_encoding.md R57). It rests on the spec's own
inferences of R68 and R123, marked [derived]. -/
def Obligations.LoadedIntegerIsReadBackUnchanged : Prop :=
  ∀ (s : State) (r : Reg) (v : Int) (din : BitVec 256) (tin : List Byte), -2 ^ 63 ≤ v → v < 2 ^ 63 →
    ∃ t, core.run 2 { s with pending := [.command (present (.ldi64 r) (payload 64 v) tin),
                                         .command (present (.cvti64 r) din tin)] } = .next t ∧
      deliveredI64 t.rsp = v ∧ t.rsp.status = statusOk ∧ t.pending = []

/-- RENDER completes with the canonical rendering: 256 characters, character `i` being word bit `i`; or, spaced, 258
characters with spaces at 1 and 193 and the three fields between them (46_conversion.md R124). -/
def Obligations.RenderGivesTheCanonicalText : Prop :=
  ∀ (s : State) (ra : Reg), ∃ t u plain spaced,
    exec (.render ra false) s = .next t ∧ AnsweredOnly s t 0#256 plain ∧
    exec (.render ra true) s = .next u ∧ AnsweredOnly s u 0#256 spaced ∧
    plain.length = 256 ∧ spaced.length = 258 ∧
    (∀ i : BitIdx, plain[i.val]? = some (if getBit (readReg s ra) i = true then 0x31#8 else 0x30#8)) ∧
    spaced[0]? = plain[0]? ∧ spaced[1]? = some 0x20#8 ∧
    (∀ k, 1 ≤ k → k ≤ 191 → spaced[k + 1]? = plain[k]?) ∧ spaced[193]? = some 0x20#8 ∧
    (∀ k, 192 ≤ k → k ≤ 255 → spaced[k + 2]? = plain[k]?)

/-! ### Pseudo-commands -/

/-- The postfix step in two commands leaves the old word in one register and the stepped word in the other, and
`MOV w0, w0`, the nearest thing to a no-operation, changes no register (30_encoding.md R58; the postfix convention is
the spec's general knowledge, log 13). -/
def Obligations.PostfixStepKeepsTheOldValue : Prop :=
  ∀ (s : State) (x a : Reg), x ≠ a →
    (∃ t, execAll (Pseudo.postInc x a).expand s = .next t ∧ readReg t x = readReg s a ∧
      U (readReg t a) = (U (readReg s a) + 2 ^ 64) % 2 ^ 256 ∧
      ∀ r, r ≠ x → r ≠ a → readReg t r = readReg s r) ∧
    (∃ t, execAll (Pseudo.postDec x a).expand s = .next t ∧ readReg t x = readReg s a ∧
      U (readReg t a) = (U (readReg s a) + (2 ^ 256 - 2 ^ 64)) % 2 ^ 256 ∧
      ∀ r, r ≠ x → r ≠ a → readReg t r = readReg s r) ∧
    (∃ t, exec (.mov 0 0) s = .next t ∧ t.regs = s.regs)
end

