-- ==== Sys2Proof/Laws/Decode.lean ====
section
/-! SUPPORT. The fields of a command word: joining and splitting undo each other; and the shift amount's two forms. -/

namespace Sys2Proof

/-- The bits of a joined word, field by field (30_encoding.md R43). -/
theorem joined_getLsbD (op : BitVec 6) (a b c : BitVec 3) (m : Bool) (imm : BitVec 16) (k : Nat) :
    (op ++ a ++ b ++ c ++ BitVec.ofBool m ++ imm).getLsbD k =
      if k < 16 then imm.getLsbD k else if k < 17 then m else if k < 20 then c.getLsbD (k - 17)
      else if k < 23 then b.getLsbD (k - 20) else if k < 26 then a.getLsbD (k - 23) else op.getLsbD (k - 26) := by
  simp only [BitVec.getLsbD_append, BitVec.getLsbD_ofBool]
  split_ifs <;> first | rfl | omega | skip
  all_goals have h16 : k = 16 := by omega
  all_goals simp [h16]

/-- A register number goes through its 3-bit field unchanged. -/
theorem regNumber_roundtrip : ∀ r : Reg, Fin.ofNat 8 (BitVec.ofNat 3 r).toNat = r := by decide

/-- A 3-bit field goes through its register number unchanged. -/
theorem regBits_roundtrip (x : BitVec 3) : BitVec.ofNat 3 (Fin.ofNat 8 x.toNat : Reg).val = x := by
  have all : ∀ n : Fin 8, BitVec.ofNat 3 (Fin.ofNat 8 n.val : Reg).val = BitVec.ofNat 3 n.val := by decide
  simpa using all ⟨x.toNat, x.isLt⟩

/-- The fields of a joined word are the fields it was joined from. -/
@[simp] theorem splitFields_joinFields (f : Fields) : splitFields (joinFields f) = f := by
  have bits : ∀ {n lo : Nat} {x : BitVec n} {w : BitVec 32}, (∀ k, k < n → w.getLsbD (lo + k) = x.getLsbD k) →
      w.extractLsb' lo n = x := fun h => BitVec.eq_of_getLsbD_eq fun k hk => by
    rw [BitVec.getLsbD_extractLsb', h k hk]; simp [hk]
  obtain ⟨op, rd, ra, rb, m, imm⟩ := f
  simp only [splitFields, opField, regField, joinFields, Fields.mk.injEq]
  refine ⟨?_, ?_, ?_, ?_, ?_, ?_⟩
  · refine bits fun k hk => ?_
    rw [joined_getLsbD]; split_ifs <;> first | omega | (congr 1; omega)
  · rw [bits (x := BitVec.ofNat 3 rd), regNumber_roundtrip]
    intro k hk; rw [joined_getLsbD]; split_ifs <;> first | omega | (congr 1; omega)
  · rw [bits (x := BitVec.ofNat 3 ra), regNumber_roundtrip]
    intro k hk; rw [joined_getLsbD]; split_ifs <;> first | omega | (congr 1; omega)
  · rw [bits (x := BitVec.ofNat 3 rb), regNumber_roundtrip]
    intro k hk; rw [joined_getLsbD]; split_ifs <;> first | omega | (congr 1; omega)
  · rw [joined_getLsbD]; rfl
  · refine bits fun k hk => ?_
    rw [joined_getLsbD]; split_ifs <;> first | omega | (congr 1; omega)

/-- The word joined from a word's fields is that word. -/
@[simp] theorem joinFields_splitFields (c : BitVec 32) : joinFields (splitFields c) = c := by
  apply BitVec.eq_of_getLsbD_eq
  intro k hk
  simp only [joinFields, splitFields, regField, opField, regBits_roundtrip]
  rw [joined_getLsbD]
  simp only [BitVec.getLsbD_extractLsb']
  split_ifs
  · simp [*]
  · congr 1; omega
  all_goals rw [decide_eq_true (by omega), Bool.true_and]; congr 1; omega

/-- A shift amount in range goes through its immediate unchanged (30_encoding.md R49, R57). -/
theorem immAmount_amountImm (n : Int) (h : amountFits n = true) : immAmount (amountImm n) = n := by
  simp only [amountFits, Bool.and_eq_true, decide_eq_true_eq] at h
  unfold immAmount amountImm
  rw [BitVec.toInt_ofInt]
  exact Int.bmod_eq_of_le (by norm_num; omega) (by norm_num; omega)

/-- An immediate goes through its shift amount unchanged. -/
theorem amountImm_immAmount (x : BitVec 16) : amountImm (immAmount x) = x := BitVec.ofInt_toInt

/-- Every immediate is an amount in range. -/
theorem amountFits_immAmount (x : BitVec 16) : amountFits (immAmount x) = true := by
  have h1 := BitVec.toInt_lt (x := x)
  have h2 := BitVec.le_toInt x
  unfold amountFits immAmount
  simp at *
  omega

end Sys2Proof
end

