-- ==== Sys2Proof/Laws/PerInstr.lean ====
section
/-! SUPPORT. The family `EncodeSelectsRow`, one lemma per constructor of `Instr`: the word of a command carries the
opcode of the row of the opcode map that bears the command's mnemonic, and has no bit that the row's format does not
use. -/

namespace Sys2Proof.Laws

/-- The encoding of a well-formed command carries the opcode of the row with its mnemonic, and that row's build gives
the command back from the word's fields (30_encoding.md R43, R52). -/
def EncodeSelectsRow.Statement (i : Instr) : Prop :=
  i.wellFormed = true → ∃ r ∈ opcodeTable, r.mnemonic = i.mnemonic ∧ opField (encode i) = r.op ∧
    r.build (splitFields (encode i)) = i

/-- A row of the map and the fields of a word joined from them give the statement. -/
theorem encodeSelectsRow_of_fields {i : Instr} (r : OpcodeRow) (f : Fields) (hr : r ∈ opcodeTable)
    (hm : r.mnemonic = i.mnemonic) (he : encode i = joinFields f) (ho : f.op = r.op) (hb : r.build f = i) :
    EncodeSelectsRow.Statement i := by
  intro _
  refine ⟨r, hr, hm, ?_, ?_⟩
  · rw [he, ← ho]; exact congrArg Fields.op (splitFields_joinFields f)
  · rw [he, splitFields_joinFields, hb]

/-- The `k`-th row of the map is a row of the map. -/
theorem row_mem (k : Nat) (h : k < opcodeTable.length) : opcodeTable[k] ∈ opcodeTable := List.getElem_mem h

theorem EncodeSelectsRow.flip (rd ra : Reg) : EncodeSelectsRow.Statement (.flip rd ra) :=
  encodeSelectsRow_of_fields _ ⟨0x1, rd, ra, 0, false, 0⟩ (row_mem 0 (by decide)) rfl rfl rfl rfl

theorem EncodeSelectsRow.ldi32 (rd : Reg) : EncodeSelectsRow.Statement (.ldi32 rd) :=
  encodeSelectsRow_of_fields _ ⟨0x8, rd, 0, 0, false, 0⟩ (row_mem 1 (by decide)) rfl rfl rfl rfl

theorem EncodeSelectsRow.ldu32 (rd : Reg) : EncodeSelectsRow.Statement (.ldu32 rd) :=
  encodeSelectsRow_of_fields _ ⟨0x9, rd, 0, 0, false, 0⟩ (row_mem 2 (by decide)) rfl rfl rfl rfl

theorem EncodeSelectsRow.ldi64 (rd : Reg) : EncodeSelectsRow.Statement (.ldi64 rd) :=
  encodeSelectsRow_of_fields _ ⟨0xa, rd, 0, 0, false, 0⟩ (row_mem 3 (by decide)) rfl rfl rfl rfl

theorem EncodeSelectsRow.ldu64 (rd : Reg) : EncodeSelectsRow.Statement (.ldu64 rd) :=
  encodeSelectsRow_of_fields _ ⟨0xb, rd, 0, 0, false, 0⟩ (row_mem 4 (by decide)) rfl rfl rfl rfl

theorem EncodeSelectsRow.ldf64 (rd : Reg) : EncodeSelectsRow.Statement (.ldf64 rd) :=
  encodeSelectsRow_of_fields _ ⟨0xc, rd, 0, 0, false, 0⟩ (row_mem 5 (by decide)) rfl rfl rfl rfl

theorem EncodeSelectsRow.ldlit (rd : Reg) : EncodeSelectsRow.Statement (.ldlit rd) :=
  encodeSelectsRow_of_fields _ ⟨0xd, rd, 0, 0, false, 0⟩ (row_mem 6 (by decide)) rfl rfl rfl rfl

theorem EncodeSelectsRow.mov (rd ra : Reg) : EncodeSelectsRow.Statement (.mov rd ra) :=
  encodeSelectsRow_of_fields _ ⟨0xe, rd, ra, 0, false, 0⟩ (row_mem 7 (by decide)) rfl rfl rfl rfl

theorem EncodeSelectsRow.ldw (rd : Reg) : EncodeSelectsRow.Statement (.ldw rd) :=
  encodeSelectsRow_of_fields _ ⟨0xf, rd, 0, 0, false, 0⟩ (row_mem 8 (by decide)) rfl rfl rfl rfl

theorem EncodeSelectsRow.neg (rd ra : Reg) : EncodeSelectsRow.Statement (.neg rd ra) :=
  encodeSelectsRow_of_fields _ ⟨0x10, rd, ra, 0, false, 0⟩ (row_mem 9 (by decide)) rfl rfl rfl rfl

theorem EncodeSelectsRow.incu (rd ra : Reg) : EncodeSelectsRow.Statement (.incu rd ra) :=
  encodeSelectsRow_of_fields _ ⟨0x11, rd, ra, 0, false, 0⟩ (row_mem 10 (by decide)) rfl rfl rfl rfl

theorem EncodeSelectsRow.decu (rd ra : Reg) : EncodeSelectsRow.Statement (.decu rd ra) :=
  encodeSelectsRow_of_fields _ ⟨0x12, rd, ra, 0, false, 0⟩ (row_mem 11 (by decide)) rfl rfl rfl rfl

theorem EncodeSelectsRow.inci (rd ra : Reg) : EncodeSelectsRow.Statement (.inci rd ra) :=
  encodeSelectsRow_of_fields _ ⟨0x13, rd, ra, 0, false, 0⟩ (row_mem 12 (by decide)) rfl rfl rfl rfl

theorem EncodeSelectsRow.deci (rd ra : Reg) : EncodeSelectsRow.Statement (.deci rd ra) :=
  encodeSelectsRow_of_fields _ ⟨0x14, rd, ra, 0, false, 0⟩ (row_mem 13 (by decide)) rfl rfl rfl rfl

theorem EncodeSelectsRow.add (rd ra rb : Reg) : EncodeSelectsRow.Statement (.add rd ra rb) :=
  encodeSelectsRow_of_fields _ ⟨0x15, rd, ra, rb, false, 0⟩ (row_mem 14 (by decide)) rfl rfl rfl rfl

theorem EncodeSelectsRow.sub (rd ra rb : Reg) : EncodeSelectsRow.Statement (.sub rd ra rb) :=
  encodeSelectsRow_of_fields _ ⟨0x16, rd, ra, rb, false, 0⟩ (row_mem 15 (by decide)) rfl rfl rfl rfl

theorem EncodeSelectsRow.mul (rd ra rb : Reg) : EncodeSelectsRow.Statement (.mul rd ra rb) :=
  encodeSelectsRow_of_fields _ ⟨0x17, rd, ra, rb, false, 0⟩ (row_mem 16 (by decide)) rfl rfl rfl rfl

theorem EncodeSelectsRow.shl (rd ra : Reg) (n : Int) : EncodeSelectsRow.Statement (.shl rd ra n) := fun h =>
  encodeSelectsRow_of_fields _ ⟨0x18, rd, ra, 0, false, amountImm n⟩ (row_mem 17 (by decide)) rfl rfl rfl
    (congrArg (Instr.shl rd ra) (immAmount_amountImm n h)) h

theorem EncodeSelectsRow.shr (rd ra : Reg) (n : Int) : EncodeSelectsRow.Statement (.shr rd ra n) := fun h =>
  encodeSelectsRow_of_fields _ ⟨0x19, rd, ra, 0, false, amountImm n⟩ (row_mem 18 (by decide)) rfl rfl rfl
    (congrArg (Instr.shr rd ra) (immAmount_amountImm n h)) h

theorem EncodeSelectsRow.cvti32 (ra : Reg) : EncodeSelectsRow.Statement (.cvti32 ra) :=
  encodeSelectsRow_of_fields _ ⟨0x20, 0, ra, 0, false, 0⟩ (row_mem 19 (by decide)) rfl rfl rfl rfl

theorem EncodeSelectsRow.cvtu32 (ra : Reg) : EncodeSelectsRow.Statement (.cvtu32 ra) :=
  encodeSelectsRow_of_fields _ ⟨0x21, 0, ra, 0, false, 0⟩ (row_mem 20 (by decide)) rfl rfl rfl rfl

theorem EncodeSelectsRow.cvti64 (ra : Reg) : EncodeSelectsRow.Statement (.cvti64 ra) :=
  encodeSelectsRow_of_fields _ ⟨0x22, 0, ra, 0, false, 0⟩ (row_mem 21 (by decide)) rfl rfl rfl rfl

theorem EncodeSelectsRow.cvtu64 (ra : Reg) : EncodeSelectsRow.Statement (.cvtu64 ra) :=
  encodeSelectsRow_of_fields _ ⟨0x23, 0, ra, 0, false, 0⟩ (row_mem 22 (by decide)) rfl rfl rfl rfl

theorem EncodeSelectsRow.render (ra : Reg) (m : Bool) : EncodeSelectsRow.Statement (.render ra m) :=
  encodeSelectsRow_of_fields _ ⟨0x24, 0, ra, 0, m, 0⟩ (row_mem 23 (by decide)) rfl rfl rfl rfl

theorem EncodeSelectsRow.rdw (ra : Reg) : EncodeSelectsRow.Statement (.rdw ra) :=
  encodeSelectsRow_of_fields _ ⟨0x25, 0, ra, 0, false, 0⟩ (row_mem 24 (by decide)) rfl rfl rfl rfl

end Sys2Proof.Laws
end

