-- ==== Sys2Proof/Laws/State.lean ====
section
/-! SUPPORT. One lemma per field per update of `State`, each true by `rfl`, so that no proof unfolds a record update;
and the reads of the register file after each update. -/

namespace Sys2Proof.Machine

/-! ### writeReg -/

@[simp] theorem writeReg_regs (s : State) (r : Reg) (v : Word) :
    (writeReg s r v).regs = s.regs.set r.val v r.isLt := rfl
@[simp] theorem writeReg_port (s : State) (r : Reg) (v : Word) : (writeReg s r v).port = s.port := rfl
@[simp] theorem writeReg_rsp (s : State) (r : Reg) (v : Word) : (writeReg s r v).rsp = s.rsp := rfl
@[simp] theorem writeReg_pending (s : State) (r : Reg) (v : Word) : (writeReg s r v).pending = s.pending := rfl

/-! ### respond -/

@[simp] theorem respond_regs (s : State) (st : BitVec 2) (d : BitVec 256) (t : List Byte) :
    (respond s st d t).regs = s.regs := rfl
@[simp] theorem respond_port (s : State) (st : BitVec 2) (d : BitVec 256) (t : List Byte) :
    (respond s st d t).port = s.port := rfl
@[simp] theorem respond_pending (s : State) (st : BitVec 2) (d : BitVec 256) (t : List Byte) :
    (respond s st d t).pending = s.pending := rfl
@[simp] theorem respond_rsp (s : State) (st : BitVec 2) (d : BitVec 256) (t : List Byte) :
    (respond s st d t).rsp = { valid := true, status := st, dout := d, tout := t } := rfl

/-! ### raiseIllegal -/

@[simp] theorem raiseIllegal_regs (s : State) : (raiseIllegal s).regs = s.regs := rfl
@[simp] theorem raiseIllegal_port (s : State) : (raiseIllegal s).port = s.port := rfl
@[simp] theorem raiseIllegal_pending (s : State) : (raiseIllegal s).pending = s.pending := rfl
@[simp] theorem raiseIllegal_rsp (s : State) :
    (raiseIllegal s).rsp = { valid := true, status := statusIllegal, dout := 0#256, tout := [] } := rfl

/-! ### acceptCommand -/

@[simp] theorem acceptCommand_regs (s : State) (c : Command) (rest : List HostEvent) :
    (acceptCommand s c rest).regs = s.regs := rfl
@[simp] theorem acceptCommand_port (s : State) (c : Command) (rest : List HostEvent) :
    (acceptCommand s c rest).port = c := rfl
@[simp] theorem acceptCommand_rsp (s : State) (c : Command) (rest : List HostEvent) :
    (acceptCommand s c rest).rsp = s.rsp := rfl
@[simp] theorem acceptCommand_pending (s : State) (c : Command) (rest : List HostEvent) :
    (acceptCommand s c rest).pending = rest := rfl

/-! ### applyReset -/

@[simp] theorem applyReset_regs (a : Option Command) (rest : List HostEvent) :
    (applyReset a rest).regs = State.reset.regs := rfl
@[simp] theorem applyReset_port (a : Option Command) (rest : List HostEvent) :
    (applyReset a rest).port = Command.idle := rfl
@[simp] theorem applyReset_rsp (a : Option Command) (rest : List HostEvent) :
    (applyReset a rest).rsp = Response.afterReset := rfl
@[simp] theorem applyReset_pending (a : Option Command) (rest : List HostEvent) :
    (applyReset a rest).pending = rest := rfl

/-! ### The register file -/

/-- A register read after a register write: the written word there, the old word elsewhere. -/
theorem readReg_writeReg (s : State) (rd r : Reg) (v : Word) :
    readReg (writeReg s rd v) r = if r = rd then v else readReg s r := by
  unfold readReg
  simp only [writeReg_regs, Vector.get_eq_getElem, Vector.getElem_set]
  by_cases h : r = rd
  · subst h; simp
  · have hv : ¬ rd.val = r.val := fun e => h (Fin.ext e.symm)
    simp [h, hv]

@[simp] theorem readReg_writeReg_self (s : State) (r : Reg) (v : Word) : readReg (writeReg s r v) r = v := by
  rw [readReg_writeReg, if_pos rfl]

theorem readReg_writeReg_other (s : State) {rd r : Reg} (v : Word) (h : r ≠ rd) :
    readReg (writeReg s rd v) r = readReg s r := by
  rw [readReg_writeReg, if_neg h]

@[simp] theorem readReg_respond (s : State) (st : BitVec 2) (d : BitVec 256) (t : List Byte) (r : Reg) :
    readReg (respond s st d t) r = readReg s r := rfl
@[simp] theorem readReg_raiseIllegal (s : State) (r : Reg) : readReg (raiseIllegal s) r = readReg s r := rfl
@[simp] theorem readReg_acceptCommand (s : State) (c : Command) (rest : List HostEvent) (r : Reg) :
    readReg (acceptCommand s c rest) r = readReg s r := rfl

/-- Equal register reads are equal register files. -/
theorem regs_ext {s t : State} (h : ∀ r, readReg s r = readReg t r) : s.regs = t.regs :=
  Vector.ext fun i hi => h ⟨i, hi⟩

end Sys2Proof.Machine
end

