-- ==== Sys2Proof/Laws/Steps.lean ====
section
/-! SUPPORT. What the ends of a command and a step can do, said once for each; and runs of the machine. -/

namespace Sys2Proof.Machine

/-- A command that ends in a register write answers a next state, and it only writes that register. -/
theorem finishWrite_next (s : State) (rd : Reg) (v : Word) : ∃ t, finishWrite s rd v = .next t ∧ WroteOnly s t rd v :=
  ⟨_, rfl, readReg_writeReg_self s rd v, fun _ h => readReg_writeReg_other s v h, rfl, rfl, rfl⟩

/-- A command that ends in an output answers a next state, and it only responds. -/
theorem finishOutput_next (s : State) (d : BitVec 256) (x : List Byte) :
    ∃ t, finishOutput s d x = .next t ∧ AnsweredOnly s t d x :=
  ⟨_, rfl, fun _ => rfl, rfl, rfl, rfl⟩

/-- What a state that `finishWrite` answers is. -/
theorem wroteOnly_of_finishWrite {s t : State} {rd : Reg} {v : Word} (h : finishWrite s rd v = .next t) :
    WroteOnly s t rd v := by
  obtain ⟨u, hu, hw⟩ := finishWrite_next s rd v
  rw [h] at hu
  cases hu
  exact hw

/-- What a state that `finishOutput` answers is. -/
theorem answeredOnly_of_finishOutput {s t : State} {d : BitVec 256} {x : List Byte}
    (h : finishOutput s d x = .next t) : AnsweredOnly s t d x := by
  obtain ⟨u, hu, hw⟩ := finishOutput_next s d x
  rw [h] at hu
  cases hu
  exact hw

/-- A step that takes a command runs the port. -/
theorem step_command {s : State} {c : Command} {rest : List HostEvent} (h : s.pending = .command c :: rest) :
    step s = runPort (acceptCommand s c rest) := by
  unfold step; rw [h]

/-- A step that takes a reset applies it. -/
theorem step_reset {s : State} {a : Option Command} {rest : List HostEvent} (h : s.pending = .reset a :: rest) :
    step s = .next (applyReset a rest) := by
  unfold step; rw [h]

/-- A run of one step more, after a step that answers a next state. -/
theorem run_of_next {k : Nat} {s t : State} (h : step s = .next t) : core.run (k + 1) s = core.run k t := by
  have hc : core.step s = .next t := h
  rw [Host.Core.run.eq_2 core s k, hc]

/-- A run of one step is the step. -/
theorem run_one (s : State) : core.run 1 s = step s := by
  refine (Host.Core.run.eq_2 core s 0).trans ?_
  have hc : core.step s = step s := rfl
  rw [hc]
  cases step s <;> rfl

/-- No meaning reads the response port. -/
theorem exec_rsp_irrelevant (i : Instr) (s : State) (x : Response) : exec i { s with rsp := x } = exec i s := by
  cases i <;> rfl

end Sys2Proof.Machine
end

