-- ==== Sys2Proof/Laws/Words.lean ====
section
/-! SUPPORT. Limbs of a word, one lemma per operation of `Machine/Ops.lean` on them; the two loops that are folds over
the limbs, unrolled; and the text of a field. -/

namespace Sys2Proof.Machine

/-! ### Limbs -/

theorem limb_getLsbD (W : Word) (L : Limb) (k : Nat) (h : k < 64) :
    (limb W L).getLsbD k = W.getLsbD (limbLow L + k) := by
  simp [limb, h]

theorem limb_toNat (W : Word) (L : Limb) : (limb W L).toNat = U W / 2 ^ limbLow L % 2 ^ 64 := by
  simp [limb, BitVec.extractLsb'_toNat, Nat.shiftRight_eq_div_pow]

theorem ofLimbs_toNat (l m r f : LimbWord) :
    U (ofLimbs l m r f) = l.toNat * 2 ^ 192 + m.toNat * 2 ^ 128 + r.toNat * 2 ^ 64 + f.toNat := by
  have hm := m.isLt
  have hr := r.isLt
  have hf := f.isLt
  unfold U ofLimbs
  simp only [BitVec.toNat_append]
  rw [← Nat.shiftLeft_add_eq_or_of_lt hm, ← Nat.shiftLeft_add_eq_or_of_lt hr, ← Nat.shiftLeft_add_eq_or_of_lt hf]
  simp only [Nat.shiftLeft_eq]
  omega

/-- A word is the word of its limbs. -/
@[simp] theorem ofLimbs_limbs (W : Word) :
    ofLimbs (limb W .left) (limb W .middle) (limb W .right) (limb W .fractional) = W := by
  apply BitVec.eq_of_toNat_eq
  have e := ofLimbs_toNat (limb W .left) (limb W .middle) (limb W .right) (limb W .fractional)
  simp only [limb_toNat, limbLow] at e
  have h := W.isLt
  unfold U at *
  omega

theorem ofLimbs_getLsbD (l m r f : LimbWord) (k : Nat) :
    (ofLimbs l m r f).getLsbD k =
      if k < 64 then f.getLsbD k else if k < 128 then r.getLsbD (k - 64)
      else if k < 192 then m.getLsbD (k - 128) else l.getLsbD (k - 192) := by
  unfold ofLimbs
  simp only [BitVec.getLsbD_append]
  by_cases h1 : k < 64
  · simp only [h1, if_true]
  by_cases h2 : k < 128
  · simp only [h1, if_false, h2, if_true, show k - 64 < 64 by omega]
  by_cases h3 : k < 192
  · rw [if_neg h1, if_neg (by omega), if_pos (by omega), if_neg h1, if_neg h2, if_pos h3, Nat.sub_sub]
  · rw [if_neg h1, if_neg (by omega), if_neg (by omega), if_neg h1, if_neg h2, if_neg h3, Nat.sub_sub, Nat.sub_sub]

theorem limb_bits_eq {x y : LimbWord} (h : ∀ k, k < 64 → x.getLsbD k = y.getLsbD k) : x = y :=
  BitVec.eq_of_getLsbD_eq fun k hk => h k hk

@[simp] theorem limb_ofLimbs_left (l m r f : LimbWord) : limb (ofLimbs l m r f) .left = l :=
  limb_bits_eq fun k h => by
    rw [limb_getLsbD _ _ _ h, show limbLow .left = 192 from rfl, ofLimbs_getLsbD]
    rw [if_neg (by omega), if_neg (by omega), if_neg (by omega)]
    rw [Nat.add_sub_cancel_left]

@[simp] theorem limb_ofLimbs_middle (l m r f : LimbWord) : limb (ofLimbs l m r f) .middle = m :=
  limb_bits_eq fun k h => by
    rw [limb_getLsbD _ _ _ h, show limbLow .middle = 128 from rfl, ofLimbs_getLsbD]
    rw [if_neg (by omega), if_neg (by omega), if_pos (by omega)]
    rw [Nat.add_sub_cancel_left]

@[simp] theorem limb_ofLimbs_right (l m r f : LimbWord) : limb (ofLimbs l m r f) .right = r :=
  limb_bits_eq fun k h => by
    rw [limb_getLsbD _ _ _ h, show limbLow .right = 64 from rfl, ofLimbs_getLsbD]
    rw [if_neg (by omega), if_pos (by omega)]
    rw [Nat.add_sub_cancel_left]

@[simp] theorem limb_ofLimbs_fractional (l m r f : LimbWord) : limb (ofLimbs l m r f) .fractional = f :=
  limb_bits_eq fun k h => by
    rw [limb_getLsbD _ _ _ h, ofLimbs_getLsbD]
    simp [limbLow, h]

/-- A limb of a word with one limb replaced. -/
theorem limb_setLimb (W : Word) (L M : Limb) (v : LimbWord) :
    limb (setLimb W L v) M = if M = L then v else limb W M := by
  cases L <;> cases M <;> simp [setLimb]

/-- The bits of a limb with one bit replaced. -/
theorem setLimbBit_getLsbD (x : LimbWord) (k j : Nat) (b : Bool) (hj : j < 64) :
    (setLimbBit x k b).getLsbD j = if j = k then b else x.getLsbD j := by
  unfold setLimbBit
  simp only [BitVec.getLsbD_or, BitVec.getLsbD_and, BitVec.getLsbD_not, BitVec.getLsbD_shiftLeft,
    BitVec.getLsbD_setWidth, BitVec.getLsbD_one, BitVec.getLsbD_ofBool, hj, decide_true, Bool.true_and]
  by_cases h : j = k
  · subst h; simp
  rcases Nat.lt_or_gt_of_ne h with h1 | h1
  · simp [h, h1]
  · simp [h, show j - k ≠ 0 by omega, show ¬ j < k by omega]

/-- Where a word bit index is routed: its limb's start plus its place in the limb is its integer position. -/
theorem limbOf_inLimb (i : BitIdx) : limbLow (limbOf i) + inLimb i = 255 - i.val ∧ inLimb i < 64 := by
  have h := i.isLt
  unfold limbOf inLimb
  split_ifs <;> simp only [limbLow] <;> omega

/-! ### Folds over the limbs -/

/-- The adder, limb by limb. -/
theorem add_limbs (A B : Word) :
    add A B =
      let f := addLimb A B (zeroWord, false) .fractional
      let r := addLimb A B f .right
      let m := addLimb A B r .middle
      (addLimb A B m .left).1 := rfl

/-- The multiplier, limb by limb. -/
theorem mul_limbs (A B : Word) :
    mul A B = mulLimb A B (mulLimb A B (mulLimb A B (mulLimb A B zeroWord (.fractional, -64)) (.right, 0))
      (.middle, 64)) (.left, 128) := rfl

/-! ### Texts -/

@[simp] theorem fieldText_length (W : Word) (lo n : Nat) (h : lo + n ≤ 256) : (fieldText W lo n h).length = n := by
  simp [fieldText]

theorem fieldText_getElem? (W : Word) (lo n : Nat) (h : lo + n ≤ 256) (k : Nat) (hk : k < n) :
    (fieldText W lo n h)[k]? = some (bitChar (getBit W ⟨lo + k, by omega⟩)) := by
  simp [fieldText, hk]

end Sys2Proof.Machine
end

