-- ==== Sys2Proof/Tests/Slice0.lean ====
section
/-! SUPPORT. The model's own tests. Every expected value is one of the spec's: the worked encodings of
spec/30_encoding.md R59 and the vectors of spec/95_test_vectors.md. The theorems `witness_<Name>` show states and
operands that meet the hypotheses of the obligation `<Name>`, clause by clause, at the ends of their ranges. -/

namespace Sys2Proof.Tests

set_option Elab.async false

open Sys2Proof Sys2Proof.Machine

/-! ### Helpers -/

/-- The state in which the host is about to present a command, with words in `w1` and `w2`. -/
def host (word : BitVec 32) (din : BitVec 256) (tin : List Byte) (w1 w2 : Word) : State :=
  { writeReg (writeReg State.reset 1 w1) 2 w2 with pending := [.command ⟨word, din, tin⟩] }

/-- The word in a register after a step. -/
def wordAfter (s : State) (r : Reg) : Option Word :=
  match step s with
  | .next t => some (readReg t r)
  | .fault _ => none
  | .refused _ => none

/-- The status and `dout` of the response after a step. -/
def outAfter (s : State) : Option (BitVec 2 × BitVec 256) :=
  match step s with
  | .next t => some (t.rsp.status, t.rsp.dout)
  | .fault _ => none
  | .refused _ => none

/-- The text of the response after a step. -/
def textAfter (s : State) : List Byte :=
  match step s with
  | .next t => t.rsp.tout
  | .fault _ => []
  | .refused _ => []

/-- The limb the vectors write `F`. -/
def ones64 : LimbWord := 0xFFFFFFFFFFFFFFFF#64

/-- The word the vectors call `c`. -/
def wordC : Word := ofLimbs 0x0123456789ABCDEF#64 0xFEDCBA9876543210#64 0x0F1E2D3C4B5A6978#64 0x8796A5B4C3D2E1F0#64

/-- The characters `"0b"` before a list of digits. -/
def literal (digits : List Byte) : List Byte := 0x30#8 :: 0x62#8 :: digits

/-! ### Well-formed commands -/

theorem test_wellFormed_shl_amount_too_large : (Instr.shl 2 1 32768).wellFormed = false := by decide

theorem test_wellFormed_shl_amount_too_small : (Instr.shl 2 1 (-32769)).wellFormed = false := by decide

theorem test_wellFormed_shr_amount_too_large : (Instr.shr 2 1 32768).wellFormed = false := by decide

theorem test_wellFormed_shr_amount_too_small : (Instr.shr 2 1 (-32769)).wellFormed = false := by decide

theorem test_wellFormed_amount_ends :
    (Instr.shl 2 1 32767).wellFormed = true ∧ (Instr.shr 2 1 (-32768)).wellFormed = true := by decide

/-! ### Decoding: the words of 95_test_vectors.md section 2.8, one for every constructor -/

theorem test_decode_flip : decode 0x07500000#32 = some (.flip 6 5) := by decide

theorem test_decode_ldi32 : decode 0x20800000#32 = some (.ldi32 1) := by decide

theorem test_decode_ldu32 : decode 0x27800000#32 = some (.ldu32 7) := by decide

theorem test_decode_ldi64 : decode 0x29000000#32 = some (.ldi64 2) := by decide

theorem test_decode_ldu64 : decode 0x2D800000#32 = some (.ldu64 3) := by decide

theorem test_decode_ldf64 : decode 0x32000000#32 = some (.ldf64 4) := by decide

theorem test_decode_ldlit : decode 0x36800000#32 = some (.ldlit 5) := by decide

theorem test_decode_mov : decode 0x3A100000#32 = some (.mov 4 1) := by decide

theorem test_decode_ldw : decode 0x3F000000#32 = some (.ldw 6) := by decide

theorem test_decode_neg : decode 0x40600000#32 = some (.neg 0 6) := by decide

theorem test_decode_incu : decode 0x47F00000#32 = some (.incu 7 7) := by decide

theorem test_decode_decu : decode 0x4AD00000#32 = some (.decu 5 5) := by decide

theorem test_decode_inci : decode 0x4D200000#32 = some (.inci 2 2) := by decide

theorem test_decode_deci : decode 0x53F00000#32 = some (.deci 7 7) := by decide

theorem test_decode_add : decode 0x55940000#32 = some (.add 3 1 2) := by decide

theorem test_decode_sub : decode 0x5AA60000#32 = some (.sub 5 2 3) := by decide

theorem test_decode_mul : decode 0x5E360000#32 = some (.mul 4 3 3) := by decide

theorem test_decode_shl : decode 0x6100FFFF#32 = some (.shl 2 0 (-1)) := by decide

theorem test_decode_shl_large : decode 0x609000C8#32 = some (.shl 1 1 200) := by decide

theorem test_decode_shr : decode 0x67F0FFFD#32 = some (.shr 7 7 (-3)) := by decide

theorem test_decode_shr_two : decode 0x64800002#32 = some (.shr 1 0 2) := by decide

theorem test_decode_cvti32 : decode 0x80400000#32 = some (.cvti32 4) := by decide

theorem test_decode_cvtu32 : decode 0x84200000#32 = some (.cvtu32 2) := by decide

theorem test_decode_cvti64 : decode 0x88700000#32 = some (.cvti64 7) := by decide

theorem test_decode_cvtu64 : decode 0x8C400000#32 = some (.cvtu64 4) := by decide

theorem test_decode_render_plain : decode 0x90500000#32 = some (.render 5 false) := by decide

theorem test_decode_render_spaced : decode 0x90510000#32 = some (.render 5 true) := by decide

theorem test_decode_rdw : decode 0x94300000#32 = some (.rdw 3) := by decide

theorem test_encode_add : encode (.add 3 1 2) = 0x55940000#32 := by decide

theorem test_encode_shr : encode (.shr 7 7 (-3)) = 0x67F0FFFD#32 := by decide

/-- The words of 95_test_vectors.md section 2.8 whose opcode is not assigned. -/
theorem test_decode_unassigned :
    ([0x00000000#32, 0x08000000#32, 0x1C000000#32, 0x68000000#32, 0x7C000000#32, 0x98000000#32, 0xFFFFFFFF#32].all fun c => (decode c).isNone) = true := by decide

/-- The words of 95_test_vectors.md section 2.8 with a 1 in a must-be-zero field. -/
theorem test_decode_must_be_zero :
    ([0x55940001#32, 0x54010000#32, 0x04020000#32, 0x40600001#32, 0x60020000#32, 0x64010002#32, 0x20100000#32,
      0x30020000#32, 0x34000001#32, 0x80800000#32, 0x80010000#32, 0x90020000#32, 0x90008000#32, 0x94800000#32].all
      fun c => (decode c).isNone) = true := by decide

theorem test_decodeTableWord_ldw : decodeTableWord 32 0x3F000000 = some (.ldw 6) := by decide

/-! ### Bits of a word (95_test_vectors.md section 2.1) -/

theorem test_getBit_routes :
    getBit wordC 0 = false ∧ getBit wordC 7 = true ∧ getBit wordC 63 = true ∧ getBit wordC 64 = true ∧
    getBit wordC 127 = false ∧ getBit wordC 128 = false ∧ getBit wordC 191 = false ∧ getBit wordC 192 = true ∧
    getBit wordC 255 = false := by decide

theorem test_setBit_routes :
    setBit zeroWord 191 true = ofLimbs 0 0 1 0 ∧ setBit zeroWord 255 true = ofLimbs 0 0 0 1 ∧
    setBit (ofLimbs ones64 ones64 ones64 ones64) 64 false = ofLimbs ones64 0x7FFFFFFFFFFFFFFF#64 ones64 ones64 := by
  decide

/-! ### One step of each instruction (95_test_vectors.md sections 2.1 to 2.7) -/

theorem test_flip_is_no_negation :
    wordAfter (host 0x05900000#32 0 [] (ofLimbs 0 0 0xD#64 0) zeroWord) 3 =
      some (ofLimbs ones64 ones64 0xFFFFFFFFFFFFFFF2#64 ones64) := by decide

theorem test_flip_c :
    wordAfter (host 0x05900000#32 0 [] wordC zeroWord) 3 =
      some (ofLimbs 0xFEDCBA9876543210#64 0x0123456789ABCDEF#64 0xF0E1D2C3B4A59687#64 0x78695A4B3C2D1E0F#64) := by decide

theorem test_ldi32_most_negative :
    wordAfter (host 0x21800000#32 0x80000000#256 [] zeroWord zeroWord) 3 =
      some (ofLimbs ones64 ones64 0xFFFFFFFF80000000#64 0) := by decide +kernel

theorem test_ldi32_ignores_upper_bits :
    wordAfter (host 0x21800000#32 0xDEADBEEF00000005#256 [] zeroWord zeroWord) 3 =
      some (ofLimbs 0 0 0x5#64 0) := by decide +kernel

theorem test_ldu32_all_ones :
    wordAfter (host 0x25800000#32 0xFFFFFFFF#256 [] zeroWord zeroWord) 3 =
      some (ofLimbs 0 0 0x00000000FFFFFFFF#64 0) := by decide +kernel

theorem test_ldi64_minus_one :
    wordAfter (host 0x29800000#32 0xFFFFFFFFFFFFFFFF#256 [] zeroWord zeroWord) 3 =
      some (ofLimbs ones64 ones64 ones64 0) := by decide +kernel

theorem test_ldi64_most_negative :
    wordAfter (host 0x29800000#32 0x8000000000000000#256 [] zeroWord zeroWord) 3 =
      some (ofLimbs ones64 ones64 0x8000000000000000#64 0) := by decide +kernel

theorem test_ldu64_all_ones :
    wordAfter (host 0x2D800000#32 0xFFFFFFFFFFFFFFFF#256 [] zeroWord zeroWord) 3 =
      some (ofLimbs 0 0 ones64 0) := by decide +kernel

theorem test_ldf64_minus_12_75 :
    wordAfter (host 0x31800000#32 0xC029800000000000#256 [] zeroWord zeroWord) 3 =
      some (ofLimbs ones64 ones64 0xFFFFFFFFFFFFFFF3#64 0x4000000000000000#64) := by decide +kernel

theorem test_ldf64_top_bit_dropped :
    wordAfter (host 0x31800000#32 0x4BFFFFFFFFFFFFFF#256 [] zeroWord zeroWord) 3 =
      some (ofLimbs 0xFFFFFFFFFFFFF000#64 0 0 0) := by decide +kernel

theorem test_ldlit_five :
    wordAfter (host 0x35800000#32 0 (literal [0x31, 0x30, 0x31]) zeroWord zeroWord) 3 =
      some (ofLimbs 0 0 0 0x5#64) := by decide +kernel

theorem test_ldlit_skipped_keeps_place :
    wordAfter (host 0x35800000#32 0 (literal [0x31, 0x5F, 0x30]) zeroWord zeroWord) 3 =
      some (ofLimbs 0 0 0 0x4#64) := by decide +kernel

theorem test_mov_copies :
    wordAfter (host 0x39900000#32 0 [] (ofLimbs 0 0 0xD#64 0) zeroWord) 3 =
      some (ofLimbs 0 0 0xD#64 0) := by decide

theorem test_ldw_c :
    wordAfter (host 0x3D800000#32 0x0123456789ABCDEFFEDCBA98765432100F1E2D3C4B5A69788796A5B4C3D2E1F0#256 [] zeroWord zeroWord) 3 =
      some wordC := by decide +kernel

theorem test_neg_most_negative :
    wordAfter (host 0x41900000#32 0 [] (ofLimbs 0x8000000000000000#64 0 0 0) zeroWord) 3 =
      some (ofLimbs 0x8000000000000000#64 0 0 0) := by decide +kernel

theorem test_neg_twelve_and_a_half :
    wordAfter (host 0x41900000#32 0 [] (ofLimbs 0 0 0xC#64 0x8000000000000000#64) zeroWord) 3 =
      some (ofLimbs ones64 ones64 0xFFFFFFFFFFFFFFF3#64 0x8000000000000000#64) := by decide +kernel

theorem test_incu_wraps :
    wordAfter (host 0x45900000#32 0 [] (ofLimbs ones64 ones64 ones64 ones64) zeroWord) 3 =
      some zeroWord := by decide +kernel

theorem test_incu_carries_over_limbs :
    wordAfter (host 0x45900000#32 0 [] (ofLimbs 0 0 ones64 ones64) zeroWord) 3 =
      some (ofLimbs 0 0x1#64 0 0) := by decide +kernel

theorem test_decu_wraps :
    wordAfter (host 0x49900000#32 0 [] zeroWord zeroWord) 3 =
      some (ofLimbs ones64 ones64 ones64 ones64) := by decide +kernel

theorem test_decu_borrows :
    wordAfter (host 0x49900000#32 0 [] (ofLimbs 0x8000000000000000#64 0 0 0) zeroWord) 3 =
      some (ofLimbs 0x7FFFFFFFFFFFFFFF#64 ones64 ones64 ones64) := by decide +kernel

theorem test_inci_keeps_fraction :
    wordAfter (host 0x4D900000#32 0 [] (ofLimbs ones64 ones64 ones64 ones64) zeroWord) 3 =
      some (ofLimbs 0 0 0 ones64) := by decide +kernel

theorem test_inci_largest_integer :
    wordAfter (host 0x4D900000#32 0 [] (ofLimbs 0x7FFFFFFFFFFFFFFF#64 ones64 ones64 0x5#64) zeroWord) 3 =
      some (ofLimbs 0x8000000000000000#64 0 0 0x5#64) := by decide +kernel

theorem test_deci_keeps_fraction :
    wordAfter (host 0x51900000#32 0 [] (ofLimbs 0 0 ones64 ones64) zeroWord) 3 =
      some (ofLimbs 0 0 0xFFFFFFFFFFFFFFFE#64 ones64) := by decide +kernel

theorem test_deci_zero :
    wordAfter (host 0x51900000#32 0 [] zeroWord zeroWord) 3 =
      some (ofLimbs ones64 ones64 ones64 0) := by decide +kernel

theorem test_add_second_disjunct :
    wordAfter (host 0x55940000#32 0 [] (ofLimbs 0 0 0 0x1#64) (ofLimbs ones64 ones64 ones64 ones64)) 3 =
      some zeroWord := by decide +kernel

theorem test_add_carry_chain :
    wordAfter (host 0x55940000#32 0 [] (ofLimbs 0 ones64 0 0x1#64) (ofLimbs 0 0 ones64 ones64)) 3 =
      some (ofLimbs 0x1#64 0 0 0) := by decide +kernel

theorem test_sub_operand_order :
    wordAfter (host 0x59940000#32 0 [] (ofLimbs 0 0 0xC#64 0) (ofLimbs ones64 ones64 ones64 0)) 3 =
      some (ofLimbs 0 0 0xD#64 0) := by decide +kernel

theorem test_mul_negative_multiplier_quirk :
    wordAfter (host 0x5D940000#32 0 [] (ofLimbs 0 0 0x1#64 0x8000000000000000#64) (ofLimbs ones64 ones64 0xFFFFFFFFFFFFFFFE#64 0)) 3 =
      some (ofLimbs 0x7FFFFFFFFFFFFFFF#64 ones64 0xFFFFFFFFFFFFFFFD#64 0) := by decide +kernel

theorem test_mul_terms_floored_one_by_one :
    wordAfter (host 0x5D940000#32 0 [] (ofLimbs 0 0 0 0x7#64) (ofLimbs 0 0 0 0xE000000000000000#64)) 3 =
      some (ofLimbs 0 0 0 0x4#64) := by decide +kernel

theorem test_shl_crosses_limbs :
    wordAfter (host 0x61900044#32 0 [] wordC zeroWord) 3 =
      some (ofLimbs 0xEDCBA98765432100#64 0xF1E2D3C4B5A69788#64 0x796A5B4C3D2E1F00#64 0) := by decide +kernel

theorem test_shl_negative_shifts_right :
    wordAfter (host 0x6190FFFF#32 0 [] (ofLimbs 0 0 0x3#64 0) zeroWord) 3 =
      some (ofLimbs 0 0 0x1#64 0x8000000000000000#64) := by decide +kernel

theorem test_shr_fills_with_sign :
    wordAfter (host 0x65900041#32 0 [] (ofLimbs ones64 ones64 0xFFFFFFFFFFFFFFFD#64 0) zeroWord) 3 =
      some (ofLimbs ones64 ones64 ones64 0xFFFFFFFFFFFFFFFE#64) := by decide +kernel

theorem test_shr_negative_shifts_left :
    wordAfter (host 0x6590FF41#32 0 [] (ofLimbs ones64 ones64 0xFFFFFFFFFFFFFFFD#64 0) zeroWord) 3 =
      some (ofLimbs 0x8000000000000000#64 0 0 0) := by decide +kernel

theorem test_cvti32_truncates_toward_zero :
    outAfter (host 0x80100000#32 0 [] (ofLimbs ones64 ones64 0xFFFFFFFFFFFFFFF8#64 0xC000000000000000#64) zeroWord) = some (statusOk, 0xFFFFFFF9#256) := by
  decide +kernel

theorem test_cvti32_low_bits_only :
    outAfter (host 0x80100000#32 0 [] (ofLimbs ones64 ones64 0xFFFFFFFEFFFFFFF8#64 0x2000000000000000#64) zeroWord) = some (statusOk, 0xFFFFFFF9#256) := by
  decide +kernel

theorem test_cvtu32_low_bits_only :
    outAfter (host 0x84100000#32 0 [] (ofLimbs 0 0 0x0000000100000007#64 0xE000000000000000#64) zeroWord) = some (statusOk, 0x7#256) := by
  decide +kernel

theorem test_cvti64_minus_half_is_zero :
    outAfter (host 0x88100000#32 0 [] (ofLimbs ones64 ones64 ones64 0x8000000000000000#64) zeroWord) = some (statusOk, 0x0#256) := by
  decide +kernel

theorem test_cvti64_most_negative_word :
    outAfter (host 0x88100000#32 0 [] (ofLimbs 0x8000000000000000#64 0 0 0) zeroWord) = some (statusOk, 0x0#256) := by
  decide +kernel

theorem test_cvtu64_below_range :
    outAfter (host 0x8C100000#32 0 [] (ofLimbs ones64 0xFFFFFFFFFFFFFFFE#64 0xFFFFFFFFFFFFFFFB#64 0) zeroWord) = some (statusOk, 0xFFFFFFFFFFFFFFFB#256) := by
  decide +kernel

theorem test_rdw_c :
    outAfter (host 0x94100000#32 0 [] wordC zeroWord) = some (statusOk, 0x123456789ABCDEFFEDCBA98765432100F1E2D3C4B5A69788796A5B4C3D2E1F0#256) := by
  decide +kernel

theorem test_render_plain :
    textAfter (host 0x90100000#32 0 [] (ofLimbs 0 0 1 0x8000000000000000#64) zeroWord) =
      List.replicate 191 0x30#8 ++ [0x31#8, 0x31#8] ++ List.replicate 63 0x30#8 := by
  decide +kernel

theorem test_render_spaced :
    textAfter (host 0x90110000#32 0 [] (ofLimbs 0 0 1 0x8000000000000000#64) zeroWord) =
      [0x30#8, 0x20#8] ++ List.replicate 190 0x30#8 ++ [0x31#8, 0x20#8, 0x31#8] ++ List.replicate 63 0x30#8 := by
  decide +kernel

theorem test_illegal_response :
    outAfter (host 0x55940001#32 5 [0x31] wordC wordC) = some (statusIllegal, 0#256) := by decide

theorem test_illegal_writes_nothing :
    wordAfter (host 0x55940001#32 5 [0x31] wordC wordC) 1 = some wordC := by decide

theorem test_withFetchWord_runs_the_word :
    outAfter (State.reset.withFetchWord 32 0x94300000) = some (statusOk, 0#256) := by decide

/-! ### Witnesses for the obligations with hypotheses -/

theorem witness_DecodeOfEncodeIsTheCommand :
    (Instr.shl 7 0 (-32768)).wellFormed = true ∧ (Instr.shr 0 7 32767).wellFormed = true ∧
    (Instr.rdw 7).wellFormed = true := by decide

theorem witness_DecodedWordIsItsEncoding : decode 0x67F0FFFD#32 = some (.shr 7 7 (-3)) := by decide

theorem witness_OpcodeRowsAreDisjoint :
    (∃ r ∈ opcodeTable, 0x55940000#32 &&& r.mask = r.match32) ∧ decode 0x55940000#32 = some (.add 3 1 2) := by decide

theorem witness_StepRunsDecodedCommand :
    (host 0x55940000#32 0 [] 0 0).pending = .command ⟨0x55940000#32, 0, []⟩ :: [] ∧
    decode 0x55940000#32 = some (.add 3 1 2) := by decide

theorem witness_IllegalCommandIsAnsweredAndChangesNothing :
    (host 0x55940001#32 0 [] 0 0).pending = .command ⟨0x55940001#32, 0, []⟩ :: [] ∧ IllegalWord 0x55940001#32 ∧
    ([0x00000000#32, 0x08000000#32, 0x1C000000#32, 0x68000000#32, 0x7C000000#32, 0x98000000#32, 0xFFFFFFFF#32].all
      fun c => decide (IllegalWord c)) = true ∧
    ([0x04000000#32, 0x20000000#32, 0x64000000#32, 0x80000000#32, 0x94000000#32].all
      fun c => decide (¬ IllegalWord c)) = true := by
  decide

theorem witness_IllegalCommandIsNotSticky :
    (({ State.reset with pending := [.command ⟨0, 0, []⟩, .command ⟨0x94300000, 0, []⟩] } : State).pending =
      .command ⟨0, 0, []⟩ :: .command ⟨0x94300000, 0, []⟩ :: []) ∧ IllegalWord 0#32 := by decide

theorem witness_ResetClearsRegistersAndResponse :
    ({ host 0 0 [] wordC wordC with pending := [.reset none] } : State).pending = .reset none :: [] ∧
    ({ host 0 0 [] wordC wordC with pending := [.reset (some ⟨0x94300000, 0, []⟩)] } : State).pending =
      .reset (some ⟨0x94300000, 0, []⟩) :: [] := by decide

theorem witness_IdleHoldsTheState : State.reset.pending = [] := by decide

theorem witness_EveryStepAnswersANextState :
    (host 0 0 [] 0 0).pending = .command ⟨0, 0, []⟩ :: [] ∧
    ({ State.reset with pending := [.reset none] } : State).pending = .reset none :: [] := by decide

theorem witness_OnlyRenderGivesText :
    (host 0x90500000#32 0 [] 0 0).pending = .command ⟨0x90500000#32, 0, []⟩ :: [] ∧
    decode 0x90500000#32 = some (.render 5 false) ∧ decode 0x90510000#32 = some (.render 5 true) ∧
    decode 0x94300000#32 = some (.rdw 3) ∧ decode 0#32 = none := by decide

theorem witness_StepKeepsResponseForm : ResponseOk State.reset.rsp ∧ step State.reset = .next State.reset :=
  ⟨by decide, rfl⟩

theorem witness_RunIsFoldOfTransactions :
    ({ State.reset with pending := [.command ⟨0, 0, []⟩, .command ⟨0x94300000, 0, []⟩] } : State).pending =
      ([(⟨0, 0, []⟩ : Command)] ++ [(⟨0x94300000, 0, []⟩ : Command)]).map HostEvent.command ++ [] := by decide

theorem witness_EveryCommandCompletesAndWritesOnlyItsDestination :
    dest (.add 3 1 2) = some 3 ∧ dest (.add 3 1 2) ≠ some 4 ∧ dest (.rdw 3) ≠ some 3 := by decide

/-- Two states that agree on what a command reads, and differ elsewhere. -/
theorem witness_EffectDependsOnlyOnOperands :
    (∀ r ∈ sources (.neg 0 1), readReg (host 0 7 [] wordC 0) r = readReg (host 0 8 [0x31] wordC wordC) r) ∧
    ((0x100000005#256).toNat % 2 ^ dinBitsUsed (.ldi32 0) = (0x5#256).toNat % 2 ^ dinBitsUsed (.ldi32 0)) ∧
    usesTin (.ldlit 0) = true ∧ usesTin (.neg 0 1) = false := by decide

/-- The first and last index of each limb. -/
theorem witness_GetReadsTheRoutedBit :
    (0 : BitIdx).val < 64 ∧ (63 : BitIdx).val < 64 ∧ (64 ≤ (64 : BitIdx).val ∧ (127 : BitIdx).val < 128) ∧
    (128 ≤ (128 : BitIdx).val ∧ (191 : BitIdx).val < 192) ∧ 192 ≤ (192 : BitIdx).val ∧ 192 ≤ (255 : BitIdx).val := by
  decide

theorem witness_RippleScanStopsAtFirstFreeBit :
    (191 : BitIdx) < 192 ∧ getBit (ofLimbs 0 0 1 0) 190 = false ∧
    (∀ j : BitIdx, 190 < j → j ≤ 191 → getBit (ofLimbs 0 0 1 0) j = true) ∧ getBit (ofLimbs 0 0 2 0) 190 = true ∧
    (∀ j : BitIdx, 190 < j → j ≤ 191 → getBit (ofLimbs 0 0 2 0) j = false) ∧
    (∀ j : BitIdx, j ≤ 0 → getBit (ofLimbs ones64 0 0 0) j = true) ∧
    (∀ j : BitIdx, j ≤ 255 → getBit zeroWord j = false) := by decide +kernel

theorem witness_NegateClosedForm :
    U (readReg (host 0 0 [] (ofLimbs 0x8000000000000000#64 0 0 0) 0) 1) = 2 ^ 255 ∧
    U (readReg (host 0 0 [] (ofLimbs 0x8000000000000000#64 0 0 1) 0) 1) ≠ 2 ^ 255 ∧
    U (readReg (host 0 0 [] (ofLimbs 0x7FFFFFFFFFFFFFFF#64 ones64 ones64 ones64) 0) 1) ≠ 2 ^ 255 := by decide +kernel

/-- The fractional limb is asked without a carry; the others also with one, at the exact end `a + b + c = 2^64`. -/
theorem witness_CarryOutIsExact :
    (Limb.fractional = .fractional → false = false) ∧ (Limb.left = .fractional → true = false) ∧
    carryOut .fractional ones64 0 false = false ∧ carryOut .fractional ones64 1 false = true ∧
    carryOut .left ones64 0 true = true ∧ carryOut .left 0xFFFFFFFFFFFFFFFE#64 0 true = false := by decide

theorem test_signed_sum_wraps :
    S (add (ofLimbs 0x7FFFFFFFFFFFFFFF#64 ones64 ones64 ones64) (ofLimbs 0 0 0 1)) = -2 ^ 255 ∧
    S (sub (ofLimbs 0x8000000000000000#64 0 0 0) (ofLimbs 0 0 0 1)) = 2 ^ 255 - 1 := by decide +kernel

/-- A double with biased exponent 1011, the last with no truncation, and one with 1010, the first with truncation. -/
theorem witness_DoubleLoadClosedForm :
    (0x3F30000000000001 = (0x3F30000000000001#256).toNat % 2 ^ 64 ∧ 1011 = 0x3F30000000000001 / 2 ^ 52 % 2 ^ 11 ∧
      2 ^ 52 + 1 = 2 ^ 52 + 0x3F30000000000001 % 2 ^ 52) ∧
    (0x3F20000000000001 = (0x3F20000000000001#256).toNat % 2 ^ 64 ∧ 1010 = 0x3F20000000000001 / 2 ^ 52 % 2 ^ 11 ∧
      2 ^ 52 + 1 = 2 ^ 52 + 0x3F20000000000001 % 2 ^ 52) := by decide

/-- Biased exponents 0, 958, 1267 and 2047. -/
theorem witness_DoubleLoadOutOfRangeGivesZero :
    (0 = (0x8000000000000000#256).toNat / 2 ^ 52 % 2 ^ 11 ∧ (0 ≤ 958 ∨ 1267 ≤ 0)) ∧
    958 = (0x3BEFFFFFFFFFFFFF#256).toNat / 2 ^ 52 % 2 ^ 11 ∧ 1267 = (0x4F30000000000000#256).toNat / 2 ^ 52 % 2 ^ 11 ∧
    (2047 = (0xFFF8000000000001#256).toNat / 2 ^ 52 % 2 ^ 11 ∧ (2047 ≤ 958 ∨ 1267 ≤ 2047)) := by decide

/-- Biased exponents 1011 and 1213. -/
theorem witness_DoubleLoadIsExactInRange :
    (1011 = 0x3F30000000000001 / 2 ^ 52 % 2 ^ 11 ∧ 1011 ≤ 1011 ∧ 1011 ≤ 1213) ∧
    (1213 = 0xCBDFFFFFFFFFFFFF / 2 ^ 52 % 2 ^ 11 ∧ 1011 ≤ 1213 ∧ 1213 ≤ 1213) ∧
    0xCBDFFFFFFFFFFFFF = (0xCBDFFFFFFFFFFFFF#256).toNat % 2 ^ 64 := by decide

theorem witness_LiteralLoadMapsCharactersRightAligned :
    (host 0 0 (literal [0x31]) 0 0).pending = [.command ⟨0, 0, 0x30#8 :: 0x62#8 :: [0x31]⟩] ∧
    ¬ ∃ digits, ([0x30#8, 0x42#8, 0x31#8] : List Byte) = 0x30#8 :: 0x62#8 :: digits :=
  ⟨by decide, by rintro ⟨digits, h⟩; simp at h⟩

theorem witness_MulByIntegerIsExact :
    U (ofLimbs ones64 ones64 ones64 0) % 2 ^ 64 = 0 ∧ U (ofLimbs 0x7FFFFFFFFFFFFFFF#64 ones64 ones64 0) % 2 ^ 64 = 0 ∧
    U (ofLimbs 0x7FFFFFFFFFFFFFFF#64 ones64 ones64 0) < 2 ^ 255 := by decide

/-- The largest non-negative multiplier, all 64 fractional bits set, and one without any. -/
theorem witness_MulShortfallIsBelowFractionalBitCount :
    U (ofLimbs 0x7FFFFFFFFFFFFFFF#64 ones64 ones64 ones64) < 2 ^ 255 ∧ U (ofLimbs 0 0 1 0) < 2 ^ 255 := by decide

theorem witness_MulNegativeMultiplierQuirk :
    2 ^ 255 ≤ U (ofLimbs 0x8000000000000000#64 0 0 0) ∧ 2 ^ 255 ≤ U (ofLimbs ones64 ones64 ones64 ones64) := by decide

theorem witness_MulDistributesInTheStatedCases :
    U (ofLimbs ones64 ones64 0xFFFFFFFFFFFFFFFD#64 0) % 2 ^ 64 = 0 ∧ U (ofLimbs 0 0 3 0) % 2 ^ 64 = 0 ∧
    U (ofLimbs 0 0 3 0) + U (ofLimbs ones64 ones64 0xFFFFFFFFFFFFFFFC#64 0) < 2 ^ 256 ∧
    U (ofLimbs ones64 ones64 0xFFFFFFFFFFFFFFFC#64 0) % 2 ^ 64 = 0 := by decide

theorem witness_ShiftLeftMovesEveryBit :
    (0 : BitIdx).val + 255 = (255 : BitIdx).val ∧ 255 < (1 : BitIdx).val + 255 ∧ 255 < (0 : BitIdx).val + 256 := by decide

theorem witness_ShiftRightMovesEveryBit :
    (0 : BitIdx).val + 255 = (255 : BitIdx).val ∧ (254 : BitIdx).val < 255 ∧ (255 : BitIdx).val < 256 := by decide

/-- A shift by exactly the width. -/
theorem witness_OverWideAndComposedShifts :
    (256 : Nat) ≤ 256 ∧ shl wordC 256 = 0#256 ∧ shr (ofLimbs 0x8000000000000000#64 0 0 0) 256 = BitVec.allOnes 256 := by
  decide +kernel

/-- Both ends of the amount, with a word that does and one that does not come back. -/
theorem witness_ShiftRoundTripConditions :
    (0 ≤ 255 ∧ 255 ≤ 255) ∧ shr (shl (BitVec.allOnes 256) 255) 255 = BitVec.allOnes 256 ∧
    shr (shl (ofLimbs 0 0 0 1) 255) 255 ≠ ofLimbs 0 0 0 1 := by decide +kernel

/-- The ends of the four target ranges. -/
theorem witness_ConversionsDeliverInRangeValues :
    (-2 ^ 31 : Int) = (S (ofLimbs ones64 ones64 0xFFFFFFFF80000000#64 0)).tdiv (2 ^ 64) ∧
    (2 ^ 31 - 1 : Int) = (S (ofLimbs 0 0 0x7FFFFFFF#64 ones64)).tdiv (2 ^ 64) ∧
    (2 ^ 32 - 1 : Int) = (S (ofLimbs 0 0 0xFFFFFFFF#64 ones64)).tdiv (2 ^ 64) ∧
    (-2 ^ 63 : Int) = (S (ofLimbs ones64 ones64 0x8000000000000000#64 0)).tdiv (2 ^ 64) ∧
    (2 ^ 63 - 1 : Int) = (S (ofLimbs 0 0 0x7FFFFFFFFFFFFFFF#64 ones64)).tdiv (2 ^ 64) ∧
    (2 ^ 64 - 1 : Int) = (S (ofLimbs 0 0 ones64 ones64)).tdiv (2 ^ 64) ∧
    (0 : Int) = (S (ofLimbs ones64 ones64 ones64 1)).tdiv (2 ^ 64) := by decide +kernel

theorem witness_LoadedIntegerIsReadBackUnchanged :
    ((-2 ^ 63 : Int) ≤ -2 ^ 63 ∧ (-2 ^ 63 : Int) < 2 ^ 63) ∧ ((-2 ^ 63 : Int) ≤ 2 ^ 63 - 1 ∧ (2 ^ 63 - 1 : Int) < 2 ^ 63) := by
  decide

theorem witness_RenderGivesTheCanonicalText :
    (1 ≤ 191 ∧ 191 ≤ 191) ∧ (192 ≤ 192 ∧ 192 ≤ 255) ∧ (192 ≤ 255 ∧ 255 ≤ 255) := by decide

theorem witness_PostfixStepKeepsTheOldValue : (0 : Reg) ≠ 7 := by decide

theorem test_written_form :
    written (.shr 7 7 (-3)) ⟨0, 0, []⟩ = "SHR w7, w7, #-3" ∧ written (.render 5 true) ⟨0, 0, []⟩ = "RENDER w5, 1" := by
  decide +kernel

end Sys2Proof.Tests
end

/-! PROOFS. What a command does, said once for all 25 (`exec_ends`), and a step of the machine as its transaction
(`runPort_eq_transact`); with them the family of spec/00_scope.md is settled. -/

namespace Sys2Proof.Machine

/-! ### What a command can do -/

/-- A value taken from a state that rests on the registers and the command port alone (00_scope.md R12): neither the
response that stands on the port nor the host's list enters it. -/
def ReadsInputsOnly {α : Type} (v : State → α) : Prop :=
  ∀ (s : State) (x : Response) (p : List HostEvent), v { s with rsp := x, pending := p } = v s

/-- The two ways a command ends (10_state.md R18): it writes its destination, or it has none and gives an output. What
it writes or gives is read from the registers and the command port. -/
inductive Ends (i : Instr) : Prop where
  | write (rd : Reg) (v : State → Word) (hdest : dest i = some rd)
      (hexec : ∀ s, exec i s = finishWrite s rd (v s)) (hv : ReadsInputsOnly v)
  | output (d : State → BitVec 256) (x : State → List Byte) (hdest : dest i = none)
      (hexec : ∀ s, exec i s = finishOutput s (d s) (x s)) (hd : ReadsInputsOnly d) (hx : ReadsInputsOnly x)

/-- Every command ends in one of the two ways. -/
theorem exec_ends (i : Instr) : Ends i := by
  cases i with
  | flip rd _ | ldi32 rd | ldu32 rd | ldi64 rd | ldu64 rd | ldf64 rd | ldlit rd | mov rd _ | ldw rd | neg rd _
  | incu rd _ | decu rd _ | inci rd _ | deci rd _ | add rd _ _ | sub rd _ _ | mul rd _ _ | shl rd _ _
  | shr rd _ _ => exact .write rd _ rfl (fun _ => rfl) fun _ _ _ => rfl
  | cvti32 _ | cvtu32 _ | cvti64 _ | cvtu64 _ | render _ _ | rdw _ =>
    exact .output _ _ rfl (fun _ => rfl) (fun _ _ _ => rfl) fun _ _ _ => rfl

/-! ### One answer for each register file and command -/

/-- From the registers `regs` with the command `c` on the port, `f` has one answer: the registers after it and a valid
response, the same whatever response and whatever host's list stood beside them, both of which it does not read. -/
def HasOneAnswer (f : State → Host.Outcome State Fault Refusal) (regs : Vector Word 8) (c : Command) : Prop :=
  ∃ (regs' : Vector Word 8) (r : Response), r.valid = true ∧
    ∀ x p, f { regs := regs, port := c, rsp := x, pending := p } =
      .next { regs := regs', port := c, rsp := r, pending := p }

theorem exec_hasOneAnswer (i : Instr) (regs : Vector Word 8) (c : Command) : HasOneAnswer (exec i) regs c := by
  let s₀ : State := { regs := regs, port := c, rsp := Response.afterReset, pending := [] }
  cases exec_ends i with
  | write rd v _ hexec hv =>
    refine ⟨regs.set rd.val (v s₀) rd.isLt, ⟨true, statusOk, 0#256, []⟩, rfl, fun x p => ?_⟩
    rw [hexec, show v _ = v s₀ from hv s₀ x p]
    rfl
  | output d t _ hexec hd ht =>
    refine ⟨regs, ⟨true, statusOk, d s₀, t s₀⟩, rfl, fun x p => ?_⟩
    rw [hexec, show d _ = d s₀ from hd s₀ x p, show t _ = t s₀ from ht s₀ x p]
    rfl

/-- The port with an illegal word answers like one with a command (60_exceptions.md R129, R131). -/
theorem runPort_hasOneAnswer (regs : Vector Word 8) (c : Command) : HasOneAnswer runPort regs c := by
  cases hdec : decode c.cmd with
  | none => exact ⟨regs, ⟨true, statusIllegal, 0#256, []⟩, rfl, fun _ _ => by simp only [runPort, hdec]; rfl⟩
  | some i =>
    obtain ⟨regs', r, hvalid, hexec⟩ := exec_hasOneAnswer i regs c
    exact ⟨regs', r, hvalid, fun x p => by simp only [runPort, hdec, hexec]⟩

/-- The answer of the port is the transaction: its registers, its response, and all else as it was. -/
theorem runPort_eq_transact (s : State) :
    runPort s = .next { s with regs := (transact s.regs s.port).1, rsp := (transact s.regs s.port).2 } := by
  obtain ⟨regs', r, _, hrun⟩ := runPort_hasOneAnswer s.regs s.port
  have htransact : transact s.regs s.port = (regs', r) := by simp only [transact, hrun]
  rw [htransact]
  exact hrun s.rsp s.pending

/-- Every command gets a response (00_scope.md R12). -/
theorem transact_valid (regs : Vector Word 8) (c : Command) : (transact regs c).2.valid = true := by
  obtain ⟨regs', r, hvalid, hrun⟩ := runPort_hasOneAnswer regs c
  simpa only [transact, hrun] using hvalid

/-- A step that takes a command is the command's transaction (20_memory.md R38). -/
theorem step_command_eq_transact {s : State} {c : Command} {rest : List HostEvent}
    (h : s.pending = .command c :: rest) :
    step s = .next { regs := (transact s.regs c).1, port := c, rsp := (transact s.regs c).2, pending := rest } := by
  rw [step_command h, runPort_eq_transact]
  rfl

/-- With nothing presented a step is idle (60_exceptions.md R142). -/
theorem step_idle {s : State} (h : s.pending = []) : step s = .next s := by
  simp only [step, h, idle]

/-- Settles O12, by the host's next event: the step of a command is its transaction, which has no response to read, the
step of a reset is `applyReset`, and with no event there is nothing to answer. -/
theorem everyStepAnswersANextState : Obligations.EveryStepAnswersANextState := by
  rintro ⟨regs, port, rsp, pending⟩
  match pending with
  | [] => exact ⟨_, step_idle rfl, nofun, nofun⟩
  | .reset a :: rest =>
    refine ⟨applyReset a rest, step_reset rfl, nofun, fun _ _ heq => ?_⟩
    cases heq
    exact ⟨rfl, rfl⟩
  | .command c :: rest =>
    refine ⟨_, step_command_eq_transact rfl, fun _ _ heq => ?_, nofun⟩
    cases heq
    exact ⟨transact_valid regs c, rfl, rfl, rfl, fun _ => step_command_eq_transact rfl⟩

end Sys2Proof.Machine

/-! PROOFS. The family of spec/10_state.md: the registers after reset; what every command leaves unchanged, from
`exec_ends`; and that two states with the same operands end a command alike (`exec_endsAlike`). -/

namespace Sys2Proof.Machine

/-! ### The state after reset -/

/-- 10_state.md R27. -/
@[simp] theorem readReg_reset (r : Reg) : readReg State.reset r = zeroWord := by
  simp only [readReg, State.reset, Vector.get_eq_getElem, Vector.getElem_replicate]

/-- Settles O10: the registers by `readReg_reset`, the response by the definition of its reset value. -/
theorem resetStateIsAllZero : Obligations.ResetStateIsAllZero :=
  ⟨readReg_reset, rfl, rfl, rfl⟩

/-! ### What a command leaves unchanged -/

/-- Settles O17, by the two ways a command ends: a register write touches its destination alone, an output touches no
register. -/
theorem everyCommandCompletesAndWritesOnlyItsDestination :
    Obligations.EveryCommandCompletesAndWritesOnlyItsDestination := by
  intro i s
  cases exec_ends i with
  | write rd v hdest hexec _ =>
    obtain ⟨t, ht, -, hother, hrsp, hport, hpending⟩ := finishWrite_next s rd (v s)
    have hframe (r : Reg) (hr : dest i ≠ some r) : readReg t r = readReg s r :=
      hother r fun h => hr (h ▸ hdest)
    refine ⟨t, (hexec s).trans ht, hframe, ?_⟩
    simp [hrsp, hport, hpending]
  | output d x hdest hexec _ _ =>
    obtain ⟨t, ht, hregs, hrsp, hport, hpending⟩ := finishOutput_next s (d s) (x s)
    refine ⟨t, (hexec s).trans ht, fun r _ => hregs r, ?_⟩
    simp [hdest, hrsp, hport, hpending]

/-! ### What a command reads -/

/-- The states hold the same operands of a command: its source registers, the bits of `din` it uses, and `tin` if it
reads it (10_state.md R21, 20_memory.md R33, R35). -/
structure SameOperands (i : Instr) (s₁ s₂ : State) : Prop where
  regs : ∀ r ∈ sources i, readReg s₁ r = readReg s₂ r
  din : s₁.port.din.toNat % 2 ^ dinBitsUsed i = s₂.port.din.toNat % 2 ^ dinBitsUsed i
  tin : usesTin i = true → s₁.port.tin = s₂.port.tin

theorem extractLsb'_zero_eq_of_mod_eq {w : Nat} {x y : BitVec w} (n : Nat)
    (h : x.toNat % 2 ^ n = y.toNat % 2 ^ n) : x.extractLsb' 0 n = y.extractLsb' 0 n :=
  BitVec.eq_of_toNat_eq (by simpa only [BitVec.extractLsb'_toNat, Nat.shiftRight_zero] using h)

theorem din32_eq_of_mod_eq {s₁ s₂ : State} (h : s₁.port.din.toNat % 2 ^ 32 = s₂.port.din.toNat % 2 ^ 32) :
    din32 s₁ = din32 s₂ :=
  extractLsb'_zero_eq_of_mod_eq 32 h

theorem din64_eq_of_mod_eq {s₁ s₂ : State} (h : s₁.port.din.toNat % 2 ^ 64 = s₂.port.din.toNat % 2 ^ 64) :
    din64 s₁ = din64 s₂ :=
  extractLsb'_zero_eq_of_mod_eq 64 h

theorem dinWord_eq_of_mod_eq {s₁ s₂ : State} (h : s₁.port.din.toNat % 2 ^ 256 = s₂.port.din.toNat % 2 ^ 256) :
    dinWord s₁ = dinWord s₂ :=
  BitVec.eq_of_toNat_eq (by rwa [Nat.mod_eq_of_lt (BitVec.isLt _), Nat.mod_eq_of_lt (BitVec.isLt _)] at h)

/-- From both states the command ends in the same way: it writes the same word to its destination, or it has none and
gives the same output. -/
inductive EndsAlike (i : Instr) (s₁ s₂ : State) : Prop where
  | write (rd : Reg) (v : Word) (hdest : dest i = some rd)
      (h₁ : exec i s₁ = finishWrite s₁ rd v) (h₂ : exec i s₂ = finishWrite s₂ rd v)
  | output (d : BitVec 256) (x : List Byte) (hdest : dest i = none)
      (h₁ : exec i s₁ = finishOutput s₁ d x) (h₂ : exec i s₂ = finishOutput s₂ d x)

/-- The case split is by what the command reads; in each case the value of the first state is rewritten, operand by
operand, to that of the second. -/
theorem exec_endsAlike {i : Instr} {s₁ s₂ : State} (h : SameOperands i s₁ s₂) : EndsAlike i s₁ s₂ := by
  cases i with
  | flip rd ra | mov rd ra | neg rd ra | incu rd ra | decu rd ra | inci rd ra | deci rd ra | shl rd ra _
  | shr rd ra _ =>
    have ha : readReg s₁ ra = readReg s₂ ra := h.regs ra (List.mem_singleton_self ra)
    exact .write rd _ rfl rfl (by rw [ha]; rfl)
  | add rd ra rb | sub rd ra rb | mul rd ra rb =>
    have ha : readReg s₁ ra = readReg s₂ ra := h.regs ra List.mem_cons_self
    have hb : readReg s₁ rb = readReg s₂ rb := h.regs rb (List.mem_cons_of_mem _ List.mem_cons_self)
    exact .write rd _ rfl rfl (by rw [ha, hb]; rfl)
  | ldi32 rd | ldu32 rd =>
    have hd : din32 s₁ = din32 s₂ := din32_eq_of_mod_eq h.din
    exact .write rd _ rfl rfl (by rw [hd]; rfl)
  | ldi64 rd | ldu64 rd | ldf64 rd =>
    have hd : din64 s₁ = din64 s₂ := din64_eq_of_mod_eq h.din
    exact .write rd _ rfl rfl (by rw [hd]; rfl)
  | ldw rd =>
    have hd : dinWord s₁ = dinWord s₂ := dinWord_eq_of_mod_eq h.din
    exact .write rd _ rfl rfl (by rw [hd]; rfl)
  | ldlit rd =>
    have ht : tinText s₁ = tinText s₂ := h.tin rfl
    exact .write rd _ rfl rfl (by rw [ht]; rfl)
  | cvti32 ra | cvtu32 ra | cvti64 ra | cvtu64 ra | render ra _ | rdw ra =>
    have ha : readReg s₁ ra = readReg s₂ ra := h.regs ra (List.mem_singleton_self ra)
    exact .output _ _ rfl rfl (by rw [ha]; rfl)

/-- Settles O18, by the two ways a command ends alike: the same word written, or the same output given. -/
theorem effectDependsOnlyOnOperands : Obligations.EffectDependsOnlyOnOperands := by
  intro i s₁ s₂ hregs hdin htin
  cases exec_endsAlike ⟨hregs, hdin, htin⟩ with
  | write rd v hdest h₁ h₂ =>
    obtain ⟨t₁, ht₁, hv₁, -, hrsp₁, -, -⟩ := finishWrite_next s₁ rd v
    obtain ⟨t₂, ht₂, hv₂, -, hrsp₂, -, -⟩ := finishWrite_next s₂ rd v
    refine ⟨t₁, t₂, h₁.trans ht₁, h₂.trans ht₂, hrsp₁.trans hrsp₂.symm, fun r hr => ?_⟩
    obtain rfl : rd = r := Option.some.inj (hdest.symm.trans hr)
    exact hv₁.trans hv₂.symm
  | output d x hdest h₁ h₂ =>
    obtain ⟨t₁, ht₁, -, hrsp₁, -, -⟩ := finishOutput_next s₁ d x
    obtain ⟨t₂, ht₂, -, hrsp₂, -, -⟩ := finishOutput_next s₂ d x
    refine ⟨t₁, t₂, h₁.trans ht₁, h₂.trans ht₂, hrsp₁.trans hrsp₂.symm, fun r hr => ?_⟩
    simp [hdest] at hr

end Sys2Proof.Machine

/-! PROOFS. The family of spec/20_memory.md: the text each command gives (`exec_tout`), and a run over a command list,
one transaction after the other. -/

namespace Sys2Proof.Machine

/-! ### The output text -/

/-- The text of a command: RENDER's rendering, and nothing from any other (20_memory.md R36). `exec_tout` ties it to
`exec`. -/
def outText (s : State) : Instr → List Byte
  | .render ra spaced => render (readReg s ra) spaced
  | _ => []

theorem outText_of_not_render {i : Instr} (h : ∀ ra spaced, i ≠ .render ra spaced) (s : State) : outText s i = [] := by
  cases i with
  | render ra spaced => exact absurd rfl (h ra spaced)
  | _ => rfl

/-- The three fields have 1, 191 and 64 characters (46_conversion.md R124). -/
theorem render_plain_length (W : Word) : (render W false).length = 256 := by
  simp [render]

/-- The three fields and the two spaces between them (46_conversion.md R124). -/
theorem render_spaced_length (W : Word) : (render W true).length = 258 := by
  simp [render]

/-- Every register write gives the empty text, and so does every output but RENDER's. -/
theorem exec_tout (i : Instr) (s : State) : ∃ t, exec i s = .next t ∧ t.rsp.tout = outText s i := by
  cases i with
  | flip _ _ | ldi32 _ | ldu32 _ | ldi64 _ | ldu64 _ | ldf64 _ | ldlit _ | mov _ _ | ldw _ | neg _ _
  | incu _ _ | decu _ _ | inci _ _ | deci _ _ | add _ _ _ | sub _ _ _ | mul _ _ _ | shl _ _ _
  | shr _ _ _ => exact ⟨_, rfl, rfl⟩
  | cvti32 _ | cvtu32 _ | cvti64 _ | cvtu64 _ | rdw _ => exact ⟨_, rfl, rfl⟩
  | render ra spaced => exact ⟨_, rfl, rfl⟩

/-! ### A step by the word presented -/

theorem step_of_decode_none {s : State} {c : Command} {rest : List HostEvent}
    (h : s.pending = .command c :: rest) (hdec : decode c.cmd = none) :
    step s = .next (raiseIllegal (acceptCommand s c rest)) := by
  simp only [step_command h, runPort, acceptCommand_port, hdec]

theorem step_of_decode_some {s : State} {c : Command} {rest : List HostEvent} {i : Instr}
    (h : s.pending = .command c :: rest) (hdec : decode c.cmd = some i) :
    step s = exec i (acceptCommand s c rest) := by
  simp only [step_command h, runPort, acceptCommand_port, hdec]

/-- Settles O13, by the word presented: an illegal one raises IllegalCommand, which gives no text, and a decoded
command gives its `outText`. -/
theorem onlyRenderGivesText : Obligations.OnlyRenderGivesText := by
  intro s c rest h
  cases hdec : decode c.cmd with
  | none => exact ⟨_, step_of_decode_none h hdec, nofun, nofun, fun _ => rfl⟩
  | some i =>
    obtain ⟨t, ht, htext⟩ := exec_tout i (acceptCommand s c rest)
    refine ⟨t, (step_of_decode_some h hdec).trans ht, ?plain, ?spaced, ?other⟩
    case plain =>
      rintro ra ⟨⟩
      rw [htext]
      exact render_plain_length _
    case spaced =>
      rintro ra ⟨⟩
      rw [htext]
      exact render_spaced_length _
    case other =>
      intro hne
      rw [htext]
      exact outText_of_not_render (fun ra spaced hi => hne ra spaced (congrArg some hi)) _

/-! ### Runs over a command list -/

/-- Settles O16, by induction on the commands before the last: the first step is the first command's transaction, and
the rest of the list runs from the registers it leaves. -/
theorem runIsFoldOfTransactions : Obligations.RunIsFoldOfTransactions := by
  intro s cs c rest hpending
  induction cs generalizing s with
  | nil => exact ⟨_, (run_one s).trans (step_command_eq_transact hpending), rfl⟩
  | cons d ds ih =>
    obtain ⟨t, hrun, hlast⟩ := ih ⟨(transact s.regs d).1, d, (transact s.regs d).2, _⟩ rfl
    exact ⟨t, (run_of_next (step_command_eq_transact hpending)).trans hrun, hlast⟩

end Sys2Proof.Machine

/-! PROOFS. The family of spec/30_encoding.md: when a row of the opcode map is selected (`selects_iff`), the decoder by
the selected row (`decode_eq_some_iff`), the encoder after a row's build (`encode_build`); and the steps from
42_negate_increment.md in closed form (`incFrom_eq_add`, `decFrom_eq_sub`) for the postfix pseudo-commands. -/

namespace Sys2Proof

open Machine Laws

/-! ### The two parts of a command word -/

/-- The bits below the opcode, `cmd[25:0]` (30_encoding.md R43). -/
def operandBits (c : BitVec 32) : BitVec 26 := c.extractLsb' 0 26

/-- A command word is its opcode and the bits below it. -/
theorem word_eq_iff (c d : BitVec 32) : c = d ↔ opField c = opField d ∧ operandBits c = operandBits d := by
  refine ⟨fun h => by simp [h], fun ⟨hop, hlow⟩ => ?_⟩
  have hsplit (x : BitVec 32) : opField x ++ operandBits x = x :=
    BitVec.extractLsb'_append_extractLsb' (w := 6) (len := 26)
  rw [← hsplit c, ← hsplit d, hop, hlow]

theorem opField_and (c d : BitVec 32) : opField (c &&& d) = opField c &&& opField d := BitVec.extractLsb'_and

theorem operandBits_and (c d : BitVec 32) : operandBits (c &&& d) = operandBits c &&& operandBits d :=
  BitVec.extractLsb'_and

/-! ### The rows of the opcode map -/

/-- The two words of a row: the mask covers the opcode and the must-be-zero fields, and the match is the opcode with
zeros below it (30_encoding.md R44 to R48, R52). -/
theorem row_words : ∀ r ∈ opcodeTable,
    opField r.mask = BitVec.allOnes 6 ∧ operandBits r.mask = operandBits (mustBeZero r.op.toNat) ∧
    opField r.match32 = r.op ∧ operandBits r.match32 = 0#26 ∧ opField (mustBeZero r.op.toNat) = 0#6 := by
  decide

/-- The two steps of the decoder's test: the opcode, then the must-be-zero fields (30_encoding.md R53). -/
theorem selects_iff {r : OpcodeRow} (hr : r ∈ opcodeTable) (c : BitVec 32) :
    r.selects c = true ↔ opField c = r.op ∧ c &&& mustBeZero r.op.toNat = 0 := by
  obtain ⟨hmask, hmaskLow, hmatch, hmatchLow, hzero⟩ := row_words r hr
  have hselects : r.selects c = true ↔
      opField c = r.op ∧ operandBits c &&& operandBits (mustBeZero r.op.toNat) = 0#26 := by
    rw [OpcodeRow.selects, beq_iff_eq, word_eq_iff, opField_and, operandBits_and, hmask, hmaskLow, hmatch, hmatchLow,
      BitVec.and_allOnes]
  have hclear : c &&& mustBeZero r.op.toNat = 0 ↔ operandBits c &&& operandBits (mustBeZero r.op.toNat) = 0#26 := by
    rw [word_eq_iff, opField_and, operandBits_and, hzero, BitVec.and_zero]
    exact and_iff_right rfl
  rw [hselects, hclear]

/-- The opcode values differ (30_encoding.md R52). -/
theorem row_eq_of_op_eq {r₁ r₂ : OpcodeRow} (h₁ : r₁ ∈ opcodeTable) (h₂ : r₂ ∈ opcodeTable) (h : r₁.op = r₂.op) :
    r₁ = r₂ :=
  List.inj_on_of_nodup_map (by decide : (opcodeTable.map OpcodeRow.op).Nodup) h₁ h₂ h

/-- The rows are disjoint (30_encoding.md R52). -/
theorem row_eq_of_selects {r₁ r₂ : OpcodeRow} {c : BitVec 32} (h₁ : r₁ ∈ opcodeTable) (h₂ : r₂ ∈ opcodeTable)
    (hs₁ : r₁.selects c = true) (hs₂ : r₂.selects c = true) : r₁ = r₂ :=
  row_eq_of_op_eq h₁ h₂ (((selects_iff h₁ c).1 hs₁).1.symm.trans ((selects_iff h₂ c).1 hs₂).1)

/-- The opcodes of the map are those that are not unassigned (30_encoding.md R54 a). -/
theorem exists_row_iff : ∀ op : BitVec 6, (∃ r ∈ opcodeTable, r.op = op) ↔ ¬ UnassignedOp op.toNat := by
  decide

/-! ### The decoder -/

theorem decode_of_selects {r : OpcodeRow} {c : BitVec 32} (hr : r ∈ opcodeTable) (hs : r.selects c = true) :
    decode c = some (r.build (splitFields c)) := by
  have hop : opField c = r.op := ((selects_iff hr c).1 hs).1
  cases hfind : opcodeTable.find? fun r => r.op == opField c with
  | none => exact absurd (beq_iff_eq.2 hop.symm) (List.find?_eq_none.1 hfind r hr)
  | some r' =>
    obtain rfl : r' = r := row_eq_of_op_eq (List.mem_of_find?_eq_some hfind) hr
      ((beq_iff_eq.1 (List.find?_some hfind :)).trans hop)
    simp only [decode, hfind, hs, if_true]

/-- The decoder by the selected row (30_encoding.md R52, R53). -/
theorem decode_eq_some_iff (c : BitVec 32) (i : Instr) :
    decode c = some i ↔ ∃ r ∈ opcodeTable, r.selects c = true ∧ r.build (splitFields c) = i := by
  constructor
  · intro h
    unfold decode at h
    split at h
    case h_1 => cases h
    case h_2 r hfind =>
      split at h
      case isTrue hs => exact ⟨r, List.mem_of_find?_eq_some hfind, hs, Option.some.inj h⟩
      case isFalse => cases h
  · rintro ⟨r, hr, hs, rfl⟩
    exact decode_of_selects hr hs

/-- A word is illegal when no row is selected. -/
theorem illegalWord_iff (c : BitVec 32) : IllegalWord c ↔ ¬ ∃ r ∈ opcodeTable, r.selects c = true := by
  constructor
  · rintro hillegal ⟨r, hr, hs⟩
    obtain ⟨hop, hclear⟩ := (selects_iff hr c).1 hs
    rcases hillegal with hop' | hset
    · exact (exists_row_iff (opField c)).1 ⟨r, hr, hop.symm⟩ hop'
    · exact hset (hop ▸ hclear)
  · intro hnone
    by_contra hlegal
    obtain ⟨hop, hclear⟩ := not_or.1 hlegal
    obtain ⟨r, hr, hrop⟩ := (exists_row_iff (opField c)).2 hop
    exact hnone ⟨r, hr, (selects_iff hr c).2 ⟨hrop.symm, hrop ▸ not_not.1 hclear⟩⟩

/-- Settles O4: a word decodes when a row is selected, and is illegal when none is. -/
theorem decoderRefusesExactlyIllegalWords : Obligations.DecoderRefusesExactlyIllegalWords := by
  intro c
  have hdecodes : (∃ i, decode c = some i) ↔ ∃ r ∈ opcodeTable, r.selects c = true := by
    simp only [decode_eq_some_iff]
    exact ⟨fun ⟨_, r, hr, hs, _⟩ => ⟨r, hr, hs⟩, fun ⟨r, hr, hs⟩ => ⟨_, r, hr, hs, rfl⟩⟩
  rw [illegalWord_iff, ← hdecodes, ← Option.isSome_iff_exists, Option.not_isSome_iff_eq_none]

/-! ### What a row builds -/

theorem build_mnemonic : ∀ r ∈ opcodeTable, ∀ f, (r.build f).mnemonic = r.mnemonic := by
  simp [opcodeTable, Instr.mnemonic]

/-- Only a shift has something to check, and its amount comes from an immediate (30_encoding.md R49). -/
theorem build_wellFormed : ∀ r ∈ opcodeTable, ∀ f, (r.build f).wellFormed = true := by
  simp [opcodeTable, Instr.wellFormed, amountFits_immAmount]

/-- Settles O5: the rows by `row_eq_of_selects`, the mnemonic by `build_mnemonic` of the row that was selected. -/
theorem opcodeRowsAreDisjoint : Obligations.OpcodeRowsAreDisjoint := by
  refine fun c => ⟨fun r₁ h₁ r₂ h₂ hs₁ hs₂ => ?_, fun i hi => ?_⟩
  · exact congrArg OpcodeRow.mnemonic (row_eq_of_selects h₁ h₂ (beq_iff_eq.2 hs₁) (beq_iff_eq.2 hs₂))
  · obtain ⟨r, hr, hs, rfl⟩ := (decode_eq_some_iff c i).1 hi
    exact ⟨r, hr, beq_iff_eq.1 hs, (build_mnemonic r hr _).symm⟩

/-! ### The encoder after a row's build -/

/-- The fields two words have in common, bit by bit. -/
def Fields.and (f g : Fields) : Fields where
  op    := f.op &&& g.op
  rd    := f.rd &&& g.rd
  ra    := f.ra &&& g.ra
  rb    := f.rb &&& g.rb
  m     := f.m && g.m
  imm16 := f.imm16 &&& g.imm16

theorem regField_and (c d : BitVec 32) (lo : Nat) : regField (c &&& d) lo = regField c lo &&& regField d lo := by
  have hreg : ∀ x y : BitVec 3,
      Fin.ofNat 8 (x &&& y).toNat = Fin.ofNat 8 x.toNat &&& Fin.ofNat 8 y.toNat := by decide
  rw [regField, BitVec.extractLsb'_and, hreg]
  rfl

theorem splitFields_and (c d : BitVec 32) : splitFields (c &&& d) = (splitFields c).and (splitFields d) := by
  simp only [splitFields, Fields.and, opField_and, regField_and, BitVec.getLsbD_and, BitVec.extractLsb'_and]

theorem reg_and_seven : ∀ r : Reg, r &&& 7 = r := by decide

theorem reg_and_zero : ∀ r : Reg, r &&& 0 = 0 := by decide

/-- The fields of the mask of a format: the opcode and the fields that the format uses hold ones, the others zeros
(30_encoding.md R44 to R48). -/
def usedFields (rd ra rb m imm : Bool) : Fields where
  op    := BitVec.allOnes 6
  rd    := if rd then 7 else 0
  ra    := if ra then 7 else 0
  rb    := if rb then 7 else 0
  m     := m
  imm16 := if imm then BitVec.allOnes 16 else 0

/-- The word of a format's fields, taken from a word `c`, is `c` under the format's mask. -/
theorem joinFields_used (c : BitVec 32) {mask : BitVec 32} (rd ra rb m imm : Bool)
    (hmask : splitFields mask = usedFields rd ra rb m imm) :
    joinFields ⟨opField c, if rd then (splitFields c).rd else 0, if ra then (splitFields c).ra else 0,
      if rb then (splitFields c).rb else 0, if m then (splitFields c).m else false,
      if imm then (splitFields c).imm16 else 0⟩ = c &&& mask := by
  have hreg (used : Bool) (x : Reg) : (x &&& if used then 7 else 0) = if used then x else 0 := by
    cases used
    · exact reg_and_zero x
    · exact reg_and_seven x
  have himm (x : BitVec 16) : (x &&& if imm then BitVec.allOnes 16 else 0) = if imm then x else 0 := by
    cases imm
    · exact BitVec.and_zero
    · exact BitVec.and_allOnes
  have hm (x : Bool) : (x && m) = if m then x else false := by cases m <;> simp
  rw [← joinFields_splitFields (c &&& mask), splitFields_and, hmask]
  simp only [Fields.and, usedFields, hreg, himm, hm, BitVec.and_allOnes]
  rfl

section

variable {c : BitVec 32} {op : BitVec 6}

/-- 30_encoding.md R44. -/
theorem encodeR3_of_opField (h : opField c = op) :
    encodeR3 op (splitFields c).rd (splitFields c).ra (splitFields c).rb = c &&& 0xFFFE0000#32 := by
  subst h
  exact joinFields_used c true true true false false (by decide)

/-- 30_encoding.md R45. -/
theorem encodeR2_of_opField (h : opField c = op) :
    encodeR2 op (splitFields c).rd (splitFields c).ra = c &&& 0xFFF00000#32 := by
  subst h
  exact joinFields_used c true true false false false (by decide)

/-- 30_encoding.md R46. -/
theorem encodeRI_of_opField (h : opField c = op) :
    encodeRI op (splitFields c).rd (splitFields c).ra (immAmount (splitFields c).imm16) = c &&& 0xFFF0FFFF#32 := by
  subst h
  rw [encodeRI, amountImm_immAmount]
  exact joinFields_used c true true false false true (by decide)

/-- 30_encoding.md R47. -/
theorem encodeLD_of_opField (h : opField c = op) :
    encodeLD op (splitFields c).rd = c &&& 0xFF800000#32 := by
  subst h
  exact joinFields_used c true false false false false (by decide)

/-- 30_encoding.md R48, with `m` zero. -/
theorem encodeRD_of_opField (h : opField c = op) :
    encodeRD op (splitFields c).ra false = c &&& 0xFC700000#32 := by
  subst h
  exact joinFields_used c false true false false false (by decide)

/-- 30_encoding.md R48, with `m` used. -/
theorem encodeRD_mode_of_opField (h : opField c = op) :
    encodeRD op (splitFields c).ra (splitFields c).m = c &&& 0xFC710000#32 := by
  subst h
  exact joinFields_used c false true false true false (by decide)

end

/-- Encoding what a row builds from a word's fields clears the word's must-be-zero bits and nothing else. The rows
stand in the order of the map, each with the format of its command. -/
theorem encode_build : ∀ r ∈ opcodeTable, ∀ c, opField c = r.op →
    encode (r.build (splitFields c)) = c &&& ~~~(mustBeZero r.op.toNat) := by
  simp only [opcodeTable, List.forall_mem_cons]
  exact ⟨
    fun _ => encodeR2_of_opField, fun _ => encodeLD_of_opField, fun _ => encodeLD_of_opField,
    fun _ => encodeLD_of_opField, fun _ => encodeLD_of_opField, fun _ => encodeLD_of_opField,
    fun _ => encodeLD_of_opField, fun _ => encodeR2_of_opField, fun _ => encodeLD_of_opField,
    fun _ => encodeR2_of_opField, fun _ => encodeR2_of_opField, fun _ => encodeR2_of_opField,
    fun _ => encodeR2_of_opField, fun _ => encodeR2_of_opField, fun _ => encodeR3_of_opField,
    fun _ => encodeR3_of_opField, fun _ => encodeR3_of_opField, fun _ => encodeRI_of_opField,
    fun _ => encodeRI_of_opField, fun _ => encodeRD_of_opField, fun _ => encodeRD_of_opField,
    fun _ => encodeRD_of_opField, fun _ => encodeRD_of_opField, fun _ => encodeRD_mode_of_opField,
    fun _ => encodeRD_of_opField, nofun⟩

/-! ### The two round trips -/

/-- What is left when the bits of a mask are cleared is the word itself just when the word has none of them. -/
theorem and_not_eq_self_iff (c z : BitVec 32) : c &&& ~~~z = c ↔ c &&& z = 0 := by
  constructor
  · intro h
    rw [← h, BitVec.and_assoc, BitVec.not_and_self]
    exact BitVec.and_zero
  · intro h
    calc c &&& ~~~z = (c &&& z) ||| (c &&& ~~~z) := by rw [h]; exact BitVec.zero_or.symm
      _ = c &&& (z ||| ~~~z) := BitVec.and_or_distrib_left.symm
      _ = c := by rw [BitVec.or_not_self, BitVec.and_allOnes]

/-- The laws of the 25 constructors, for every command. -/
theorem encode_selectsRow (i : Instr) : EncodeSelectsRow.Statement i :=
  match i with
  | .flip rd ra => EncodeSelectsRow.flip rd ra
  | .ldi32 rd => EncodeSelectsRow.ldi32 rd
  | .ldu32 rd => EncodeSelectsRow.ldu32 rd
  | .ldi64 rd => EncodeSelectsRow.ldi64 rd
  | .ldu64 rd => EncodeSelectsRow.ldu64 rd
  | .ldf64 rd => EncodeSelectsRow.ldf64 rd
  | .ldlit rd => EncodeSelectsRow.ldlit rd
  | .mov rd ra => EncodeSelectsRow.mov rd ra
  | .ldw rd => EncodeSelectsRow.ldw rd
  | .neg rd ra => EncodeSelectsRow.neg rd ra
  | .incu rd ra => EncodeSelectsRow.incu rd ra
  | .decu rd ra => EncodeSelectsRow.decu rd ra
  | .inci rd ra => EncodeSelectsRow.inci rd ra
  | .deci rd ra => EncodeSelectsRow.deci rd ra
  | .add rd ra rb => EncodeSelectsRow.add rd ra rb
  | .sub rd ra rb => EncodeSelectsRow.sub rd ra rb
  | .mul rd ra rb => EncodeSelectsRow.mul rd ra rb
  | .shl rd ra n => EncodeSelectsRow.shl rd ra n
  | .shr rd ra n => EncodeSelectsRow.shr rd ra n
  | .cvti32 ra => EncodeSelectsRow.cvti32 ra
  | .cvtu32 ra => EncodeSelectsRow.cvtu32 ra
  | .cvti64 ra => EncodeSelectsRow.cvti64 ra
  | .cvtu64 ra => EncodeSelectsRow.cvtu64 ra
  | .render ra m => EncodeSelectsRow.render ra m
  | .rdw ra => EncodeSelectsRow.rdw ra

/-- Settles O2: the row with the command's mnemonic rebuilds the command from its word's fields, so that the word is
the encoding of what the row builds from it; by `encode_build` it has no must-be-zero bit, and the row is selected. -/
theorem decodeOfEncodeIsTheCommand : Obligations.DecodeOfEncodeIsTheCommand := by
  intro i hi
  obtain ⟨r, hr, -, hop, hbuild⟩ := encode_selectsRow i hi
  have hkept : encode i = encode i &&& ~~~(mustBeZero r.op.toNat) := by
    rw [← encode_build r hr (encode i) hop, hbuild]
  have hs : r.selects (encode i) = true :=
    (selects_iff hr _).2 ⟨hop, (and_not_eq_self_iff _ _).1 hkept.symm⟩
  rw [decode_of_selects hr hs, hbuild]

/-- Settles O3: the selected row builds a well-formed command; encoding it clears the must-be-zero bits of the word,
which has none. -/
theorem decodedWordIsItsEncoding : Obligations.DecodedWordIsItsEncoding := by
  intro c i h
  obtain ⟨r, hr, hs, rfl⟩ := (decode_eq_some_iff c i).1 h
  obtain ⟨hop, hclear⟩ := (selects_iff hr c).1 hs
  refine ⟨build_wellFormed r hr _, ?_⟩
  rw [encode_build r hr c hop, (and_not_eq_self_iff c _).2 hclear]

/-- Settles O1: each word is evaluated by the decoder. -/
theorem specWordsDecode : Obligations.SpecWordsDecode := by
  unfold Obligations.SpecWordsDecode
  decide

end Sys2Proof

namespace Sys2Proof.Machine

/-! ### Steps at a command event -/

/-- Settles O6: it is `step_of_decode_some`, with the accepted state written out. -/
theorem stepRunsDecodedCommand : Obligations.StepRunsDecodedCommand :=
  fun _ _ _ _ hpending hdec => step_of_decode_some hpending hdec

/-- Settles O7, by the word presented: an illegal one is the one that does not decode (O4), and every command that
decodes completes with status OK (O17). -/
theorem illegalCommandIsAnsweredAndChangesNothing : Obligations.IllegalCommandIsAnsweredAndChangesNothing := by
  intro s c rest hpending
  have hillegal : decode c.cmd = none ↔ IllegalWord c.cmd := decoderRefusesExactlyIllegalWords c.cmd
  cases hdec : decode c.cmd with
  | none =>
    exact ⟨_, step_of_decode_none hpending hdec, fun _ => ⟨rfl, rfl, rfl, fun _ => rfl⟩,
      fun hlegal => absurd (hillegal.1 hdec) hlegal⟩
  | some i =>
    obtain ⟨t, ht, -, -, hstatus, -⟩ := everyCommandCompletesAndWritesOnlyItsDestination i (acceptCommand s c rest)
    refine ⟨t, (step_of_decode_some hpending hdec).trans ht, fun hbad => ?_, fun _ => hstatus⟩
    rw [hillegal.2 hbad] at hdec
    cases hdec

/-! ### One bit of a word -/

/-- The routed bit is the bit at integer position `255 - i` (40_storage.md R60). -/
theorem getBit_eq_getLsbD (W : Word) (i : BitIdx) : getBit W i = W.getLsbD (255 - i.val) := by
  obtain ⟨hpos, hlt⟩ := limbOf_inLimb i
  rw [getBit, limb_getLsbD _ _ _ hlt, hpos]

theorem getBit_and (A B : Word) (i : BitIdx) : getBit (A &&& B) i = (getBit A i && getBit B i) := by
  simp only [getBit_eq_getLsbD, BitVec.getLsbD_and]

theorem getBit_or (A B : Word) (i : BitIdx) : getBit (A ||| B) i = (getBit A i || getBit B i) := by
  simp only [getBit_eq_getLsbD, BitVec.getLsbD_or]

/-- Two words with the same bits are one word. -/
theorem word_ext {A B : Word} (h : ∀ i, getBit A i = getBit B i) : A = B := by
  refine BitVec.eq_of_getLsbD_eq fun k hk => ?_
  have hbit := h ⟨255 - k, by omega⟩
  simpa only [getBit_eq_getLsbD, show 255 - (255 - k) = k by omega] using hbit

/-- A limb and a place in it name one word bit index. -/
theorem bitIdx_eq_of_route_eq {i j : BitIdx} (hlimb : limbOf i = limbOf j) (hplace : inLimb i = inLimb j) : i = j := by
  have hi := (limbOf_inLimb i).1
  have hj := (limbOf_inLimb j).1
  rw [hlimb, hplace] at hi
  exact Fin.ext (by omega)

/-- A bit read after a bit is set (40_storage.md R61). -/
theorem getBit_setBit (W : Word) (i j : BitIdx) (b : Bool) :
    getBit (setBit W i b) j = if j = i then b else getBit W j := by
  have hlt := (limbOf_inLimb j).2
  unfold getBit setBit
  rw [limb_setLimb]
  by_cases hlimb : limbOf j = limbOf i
  · have hplace : inLimb j = inLimb i ↔ j = i := ⟨bitIdx_eq_of_route_eq hlimb, fun h => h ▸ rfl⟩
    rw [if_pos hlimb, setLimbBit_getLsbD _ _ _ _ hlt]
    simp only [hplace, hlimb]
  · rw [if_neg hlimb, if_neg fun h => hlimb (congrArg limbOf h)]

/-- The weight in `U` of the bit with index `i` (00_scope.md R8, R10). -/
def bitWeight (i : BitIdx) : Word := BitVec.twoPow 256 (255 - i.val)

theorem getBit_bitWeight (i j : BitIdx) : getBit (bitWeight i) j = decide (j = i) := by
  have hplace : 255 - i.val = 255 - j.val ↔ j = i := by
    rw [Fin.ext_iff]
    omega
  rw [getBit_eq_getLsbD, bitWeight, BitVec.getLsbD_twoPow, decide_eq_true (by omega), Bool.true_and]
  exact decide_eq_decide.2 hplace

/-- Setting a bit that is 0 adds its weight. -/
theorem setBit_true_of_getBit_false {W : Word} {i : BitIdx} (h : getBit W i = false) :
    setBit W i true = W + bitWeight i := by
  have hdisjoint : W &&& bitWeight i = 0#256 := word_ext fun j => by
    rw [getBit_and, getBit_bitWeight, getBit_eq_getLsbD 0#256, BitVec.getLsbD_zero]
    by_cases hj : j = i <;> simp [hj, h]
  rw [BitVec.add_eq_or_of_and_eq_zero _ _ hdisjoint]
  refine word_ext fun j => ?_
  rw [getBit_setBit, getBit_or, getBit_bitWeight]
  by_cases hj : j = i <;> simp [hj]

/-- Clearing a bit that is 1 subtracts its weight. -/
theorem setBit_false_of_getBit_true {W : Word} {i : BitIdx} (h : getBit W i = true) :
    setBit W i false = W - bitWeight i := by
  have hback : setBit (setBit W i false) i true = W := word_ext fun j => by
    simp only [getBit_setBit]
    by_cases hj : j = i <;> simp [hj, h]
  have hcleared : getBit (setBit W i false) i = false := by rw [getBit_setBit, if_pos rfl]
  rw [eq_sub_iff_add_eq, ← setBit_true_of_getBit_false hcleared, hback]

/-! ### The two ripple scans in closed form -/

theorem twoPow_succ_eq_add (k : Nat) : BitVec.twoPow 256 (k + 1) = BitVec.twoPow 256 k + BitVec.twoPow 256 k := by
  refine BitVec.eq_of_toNat_eq ?_
  rw [BitVec.toNat_add, BitVec.toNat_twoPow, BitVec.toNat_twoPow, ← Nat.add_mod, pow_succ, Nat.mul_two]

theorem twoPow_eq_bitWeight (i : Nat) (h : i < 256) : BitVec.twoPow 256 (256 - (i + 1)) = bitWeight ⟨i, h⟩ :=
  congrArg (BitVec.twoPow 256) (show 256 - (i + 1) = 255 - i by omega)

/-- A bit carries twice its weight up. -/
theorem twoPow_eq_bitWeight_add (i : Nat) (h : i < 256) :
    BitVec.twoPow 256 (256 - i) = bitWeight ⟨i, h⟩ + bitWeight ⟨i, h⟩ := by
  rw [show 256 - i = 256 - (i + 1) + 1 by omega, twoPow_succ_eq_add, twoPow_eq_bitWeight i h]

/-- A carry out of the top bit is lost: 2^256 is 0 (42_negate_increment.md R80). -/
theorem incScan_eq_add (n : Nat) (h : n ≤ 256) (W : Word) : incScan n h W = W + BitVec.twoPow 256 (256 - n) := by
  induction n generalizing W with
  | zero => exact (add_zero W).symm
  | succ i ih =>
    rw [incScan, twoPow_eq_bitWeight i h]
    split
    case isTrue hbit =>
      rw [ih, setBit_false_of_getBit_true hbit, twoPow_eq_bitWeight_add i h]
      abel
    case isFalse hbit => exact setBit_true_of_getBit_false (Bool.eq_false_of_not_eq_true hbit)

/-- A borrow from above the top bit is lost (42_negate_increment.md R81). -/
theorem decScan_eq_sub (n : Nat) (h : n ≤ 256) (W : Word) : decScan n h W = W - BitVec.twoPow 256 (256 - n) := by
  induction n generalizing W with
  | zero => exact (sub_zero W).symm
  | succ i ih =>
    rw [decScan, twoPow_eq_bitWeight i h]
    split
    case isTrue hbit => exact setBit_false_of_getBit_true hbit
    case isFalse hbit =>
      rw [ih, setBit_true_of_getBit_false (Bool.eq_false_of_not_eq_true hbit), twoPow_eq_bitWeight_add i h]
      abel

theorem incFrom_eq_add (W : Word) (p : BitIdx) : incFrom W p = W + bitWeight p := by
  rw [incFrom, incScan_eq_add, twoPow_eq_bitWeight]

theorem decFrom_eq_sub (W : Word) (p : BitIdx) : decFrom W p = W - bitWeight p := by
  rw [decFrom, decScan_eq_sub, twoPow_eq_bitWeight]

theorem bitWeight_intLsbIdx_toNat : (bitWeight Config.intLsbIdx).toNat = 2 ^ 64 :=
  BitVec.toNat_twoPow_of_lt (by decide)

/-- `++` modulo 2^256 (42_negate_increment.md R85). -/
theorem U_incFrom_intLsbIdx (W : Word) : U (incFrom W Config.intLsbIdx) = (U W + 2 ^ 64) % 2 ^ 256 := by
  rw [U, incFrom_eq_add, BitVec.toNat_add, bitWeight_intLsbIdx_toNat]

/-- `--` modulo 2^256 (42_negate_increment.md R86). -/
theorem U_decFrom_intLsbIdx (W : Word) :
    U (decFrom W Config.intLsbIdx) = (U W + (2 ^ 256 - 2 ^ 64)) % 2 ^ 256 := by
  rw [U, decFrom_eq_sub, BitVec.toNat_sub, bitWeight_intLsbIdx_toNat, Nat.add_comm]

/-! ### Pseudo-commands -/

theorem execAll_pair {i j : Instr} {s t u : State} (hi : exec i s = .next t) (hj : exec j t = .next u) :
    execAll [i, j] s = .next u := by
  simp only [execAll, hi, hj]

/-- MOV into another register, then a command that writes `f` of a register into it: the old word in the one, `f` of it
in the other (30_encoding.md R58). -/
theorem execAll_mov_then (s : State) {x a : Reg} (hxa : x ≠ a) {i : Instr} (f : Word → Word)
    (hi : ∀ t, exec i t = finishWrite t a (f (readReg t a))) :
    ∃ t, execAll [.mov x a, i] s = .next t ∧ readReg t x = readReg s a ∧ readReg t a = f (readReg s a) ∧
      ∀ r, r ≠ x → r ≠ a → readReg t r = readReg s r := by
  obtain ⟨t, ht, htx, htother, -⟩ := finishWrite_next s x (readReg s a)
  obtain ⟨u, hu, hua, huother, -⟩ := finishWrite_next t a (f (readReg t a))
  refine ⟨u, execAll_pair (i := .mov x a) ht ((hi t).trans hu), ?old, ?stepped, fun r hrx hra => ?frame⟩
  case old => rw [huother x hxa, htx]
  case stepped => rw [hua, htother a hxa.symm]
  case frame => rw [huother r hra, htother r hrx]

/-- Writing a register with what it holds changes no register. -/
theorem writeReg_readReg_regs (s : State) (r : Reg) : (writeReg s r (readReg s r)).regs = s.regs :=
  regs_ext fun q => by
    rw [readReg_writeReg]
    split
    case isTrue h => rw [h]
    case isFalse => rfl

/-- Settles O54: both postfix steps by `execAll_mov_then`, with the closed forms of the two steps; `MOV w0, w0` writes
what `w0` holds. -/
theorem postfixStepKeepsTheOldValue : Obligations.PostfixStepKeepsTheOldValue := by
  refine fun s x a hxa => ⟨?postInc, ?postDec, _, rfl, writeReg_readReg_regs s 0⟩
  case postInc =>
    obtain ⟨t, ht, hold, hnew, hframe⟩ :=
      execAll_mov_then s hxa (i := .inci a a) (incFrom · Config.intLsbIdx) fun _ => rfl
    exact ⟨t, ht, hold, (congrArg U hnew).trans (U_incFrom_intLsbIdx _), hframe⟩
  case postDec =>
    obtain ⟨t, ht, hold, hnew, hframe⟩ :=
      execAll_mov_then s hxa (i := .deci a a) (decFrom · Config.intLsbIdx) fun _ => rfl
    exact ⟨t, ht, hold, (congrArg U hnew).trans (U_decFrom_intLsbIdx _), hframe⟩

end Sys2Proof.Machine

/-! PROOFS. The family of spec/40_storage.md: where `get` reads (`getBit_eq_limb_getLsbD`), what one bit adds to `U`
(`U_eq_add_bit`), `flip` as the complement of the bit vector (`flipBits_eq_not`), and the four commands that move whole
words. -/

namespace Sys2Proof.Machine

/-! ### `get` -/

/-- An index in a limb's range reads that limb (40_storage.md R60). -/
theorem getBit_eq_limb_getLsbD (W : Word) {i : BitIdx} {L : Limb} (hlow : 192 ≤ limbLow L + i.val)
    (hhigh : limbLow L + i.val ≤ 255) : getBit W i = (limb W L).getLsbD (63 - i.val % 64) := by
  have hplace : limbLow L + (63 - i.val % 64) = 255 - i.val := by
    cases L <;> simp only [limbLow] at * <;> omega
  rw [getBit_eq_getLsbD, limb_getLsbD W L _ (by omega), hplace]

/-- A word's unsigned reading is the sum of its limbs at their weights (00_scope.md R10). -/
theorem U_eq_sum_limbs (W : Word) :
    U W = (limb W .left).toNat * 2 ^ 192 + (limb W .middle).toNat * 2 ^ 128 + (limb W .right).toNat * 2 ^ 64 +
      (limb W .fractional).toNat := by
  rw [← ofLimbs_toNat, ofLimbs_limbs]

/-- A word bit as a bit of the unsigned reading (40_storage.md R60). -/
theorem getBit_eq_testBit (W : Word) (i : BitIdx) : getBit W i = (U W).testBit (255 - i.val) :=
  (getBit_eq_getLsbD W i).trans (BitVec.testBit_toNat W).symm

/-- Settles O19: each range holds the indexes of one limb; the integer bit by `getBit_eq_testBit`. -/
theorem getReadsTheRoutedBit : Obligations.GetReadsTheRoutedBit := by
  refine fun W i => ⟨fun _ => ?left, fun _ _ => ?middle, fun _ _ => ?right, fun _ => ?fractional,
    U_eq_sum_limbs W, getBit_eq_testBit W i⟩
  all_goals apply getBit_eq_limb_getLsbD <;> simp only [limbLow] <;> omega

/-! ### `set` -/

theorem setBit_getBit (W : Word) (i : BitIdx) : setBit W i (getBit W i) = W := word_ext fun j => by
  rw [getBit_setBit]
  split
  case isTrue h => rw [h]
  case isFalse => rfl

theorem setBit_setBit (W : Word) (i : BitIdx) (a b : Bool) : setBit (setBit W i a) i b = setBit W i b :=
  word_ext fun j => by
    simp only [getBit_setBit]
    split <;> rfl

/-- Clearing a bit that is 1 takes its weight from `U`: the weight is within `U`, so nothing wraps. -/
theorem U_eq_add_weight_of_getBit_true {W : Word} {i : BitIdx} (h : getBit W i = true) :
    U W = U (setBit W i false) + 2 ^ (255 - i.val) := by
  have hweight : (bitWeight i).toNat = 2 ^ (255 - i.val) := BitVec.toNat_twoPow_of_lt (by omega)
  have hle : 2 ^ (255 - i.val) ≤ U W := Nat.ge_two_pow_of_testBit ((getBit_eq_testBit W i).symm.trans h)
  have htaken : U (setBit W i false) = U W - 2 ^ (255 - i.val) := by
    rw [setBit_false_of_getBit_true h, U, BitVec.toNat_sub_of_le (BitVec.le_def.2 (hweight ▸ hle)), hweight]
  rw [htaken, Nat.sub_add_cancel hle]

/-- A word is itself with the bit cleared, and the bit at its weight. -/
theorem U_eq_add_bit (W : Word) (i : BitIdx) :
    U W = U (setBit W i false) + (getBit W i).toNat * 2 ^ (255 - i.val) := by
  cases h : getBit W i with
  | false => rw [← h, setBit_getBit, h, Bool.toNat_false, Nat.zero_mul, Nat.add_zero]
  | true => rw [Bool.toNat_true, Nat.one_mul, U_eq_add_weight_of_getBit_true h]

/-- Settles O20: the word before and the word after are the same word but for the one bit (`U_eq_add_bit`). -/
theorem setReplacesExactlyOneBit : Obligations.SetReplacesExactlyOneBit := by
  intro W i b
  refine ⟨fun j => getBit_setBit W i j b, ?_⟩
  have hbefore := U_eq_add_bit W i
  have hafter := U_eq_add_bit (setBit W i b) i
  rw [setBit_setBit, getBit_setBit, if_pos rfl] at hafter
  rw [hafter, ← getBit_eq_testBit, hbefore]
  push_cast
  ring

/-! ### `flip` -/

/-- Each limb is complemented (40_storage.md R62). -/
theorem limb_flipBits (W : Word) (L : Limb) : limb (flipBits W) L = ~~~(limb W L) := by
  cases L <;> simp only [flipBits, limb_ofLimbs_left, limb_ofLimbs_middle, limb_ofLimbs_right, limb_ofLimbs_fractional]

theorem getBit_flipBits (W : Word) (i : BitIdx) : getBit (flipBits W) i = !getBit W i := by
  rw [getBit, limb_flipBits, BitVec.getLsbD_not, decide_eq_true (limbOf_inLimb i).2, Bool.true_and, getBit]

/-- The complement of the four limbs is the complement of the word. -/
theorem flipBits_eq_not (W : Word) : flipBits W = ~~~W := word_ext fun i => by
  rw [getBit_flipBits, getBit_eq_getLsbD, getBit_eq_getLsbD, BitVec.getLsbD_not, decide_eq_true (by omega),
    Bool.true_and]

theorem U_flipBits (W : Word) : U (flipBits W) = 2 ^ 256 - 1 - U W := by
  rw [U, flipBits_eq_not, BitVec.toNat_not]

/-- Settles O21: bit by bit from the limbs, the other two by the complement of the bit vector. -/
theorem flipInvertsEveryBit : Obligations.FlipInvertsEveryBit := by
  refine fun W => ⟨getBit_flipBits W, U_flipBits W, ?_⟩
  rw [flipBits_eq_not, flipBits_eq_not, BitVec.not_not]

/-! ### FLIP, MOV, LDW and RDW -/

/-- Settles O22: the first three end in a register write, RDW in an output; a word and its complement sum to
`2^256 - 1`. -/
theorem flipAndCopyCommandsComplete : Obligations.FlipAndCopyCommandsComplete := by
  refine fun s rd ra => ⟨?flip, finishWrite_next s rd _, finishWrite_next s rd _, finishOutput_next s _ _⟩
  obtain ⟨t, ht, hwrote⟩ := finishWrite_next s rd (flipBits (readReg s ra))
  refine ⟨t, _, ht, hwrote, ?_⟩
  rw [U_flipBits, Nat.sub_add_cancel (Nat.le_sub_one_of_lt (readReg s ra).isLt)]

end Sys2Proof.Machine

/-! PROOFS. The family of spec/41_construction.md: `negate` is negation modulo 2^256 (`negate_eq_neg`); the integer
loads by the word of a scaled integer (`wordOfSigned_eq_word`); the double load by the mantissa's place in the word
(`wordOfBinary64_eq`); the literal load by what a character does to its bit (`getBit_placeDigits`); and the integer
converter (`toInt64Bits_eq_ofInt_tdiv`), which reads a loaded integer back. -/

namespace Sys2Proof.Machine

/-! ### Words of integers and negation -/

theorem getBit_zeroWord (i : BitIdx) : getBit zeroWord i = false := by
  rw [getBit_eq_getLsbD, BitVec.getLsbD_zero]

/-- The weight of the bit where full-resolution steps start (00_scope.md R6). -/
theorem bitWeight_fracLsbIdx : bitWeight Config.fracLsbIdx = 1#256 :=
  BitVec.twoPow_zero

/-- The sign bit is the bit vector's most significant one (00_scope.md R10). -/
theorem getBit_signIdx (W : Word) : getBit W Config.signIdx = W.msb :=
  (getBit_eq_getLsbD W Config.signIdx).trans (BitVec.msb_eq_getLsbD_last W).symm

/-- Both orders of complement and step negate modulo 2^256 (42_negate_increment.md R87, R88). -/
theorem negate_eq_neg (W : Word) : negate W = -W := by
  rw [negate, incFrom_eq_add, decFrom_eq_sub, flipBits_eq_not, flipBits_eq_not, bitWeight_fracLsbIdx,
    BitVec.not_sub_one_eq_not_add_one, ite_self, BitVec.neg_eq_not_add]

theorem S_word_of_range {n : Int} (hlow : -2 ^ 255 ≤ n) (hhigh : n < 2 ^ 255) : S (word n) = n :=
  BitVec.toInt_ofInt_eq_self (by decide) hlow hhigh

theorem word_eq_zero_of_dvd {n : Int} (h : 2 ^ 256 ∣ n) : word n = 0#256 := by
  refine BitVec.eq_of_toNat_eq ?_
  rw [BitVec.toNat_ofInt, Nat.cast_pow, Nat.cast_ofNat, Int.emod_eq_zero_of_dvd h]
  rfl

/-! ### Integer loads -/

/-- Only the low 64 bits reach the `right` limb, and every other limb is zero (41_construction.md R65). -/
theorem U_withRight (v : Nat) : U (withRight v) = v % 2 ^ 64 * 2 ^ 64 := by
  have hzero (L : Limb) : limb zeroWord L = 0#64 := BitVec.extractLsb'_zero
  simp [U_eq_sum_limbs, withRight, limb_setLimb, hzero]

theorem withRight_eq_word {v : Nat} (h : v < 2 ^ 64) : withRight v = word (v * 2 ^ 64) := by
  refine BitVec.eq_of_toNat_eq ?_
  have hU : (withRight v).toNat = v % 2 ^ 64 * 2 ^ 64 := U_withRight v
  rw [hU, BitVec.toNat_ofInt]
  omega

/-- The absolute value fits the `right` limb also for the most negative integer (92_eei_decisions.md D11). -/
theorem wordOfSigned_eq_word {v : Int} (h : v.natAbs < 2 ^ 64) : wordOfSigned v = word (v * 2 ^ 64) := by
  rw [wordOfSigned, withRight_eq_word h, negate_eq_neg, ← BitVec.ofInt_neg]
  split
  case isTrue hneg => rw [← Int.neg_mul, show -(v.natAbs : Int) = v by omega]
  case isFalse hpos => rw [show (v.natAbs : Int) = v by omega]

theorem S_wordOfSigned {v : Int} (hlow : -2 ^ 63 ≤ v) (hhigh : v < 2 ^ 63) : S (wordOfSigned v) = v * 2 ^ 64 := by
  rw [wordOfSigned_eq_word (by omega), S_word_of_range (by omega) (by omega)]

/-- Settles O23: the word is `wordOfSigned` of an integer in the signed 32-bit or 64-bit range (`S_wordOfSigned`). -/
theorem signedLoadsAreExact : Obligations.SignedLoadsAreExact := by
  refine fun s rd => ⟨?ldi32, ?ldi64⟩
  case ldi32 =>
    obtain ⟨t, ht, hwrote⟩ := finishWrite_next s rd (wordOfSigned (sext (din32 s)))
    have hlow : -2 ^ 31 ≤ sext (din32 s) := BitVec.le_toInt _
    have hhigh : sext (din32 s) < 2 ^ 31 := BitVec.toInt_lt
    exact ⟨t, _, ht, hwrote, S_wordOfSigned (by omega) (by omega)⟩
  case ldi64 =>
    obtain ⟨t, ht, hwrote⟩ := finishWrite_next s rd (wordOfSigned (sext (din64 s)))
    exact ⟨t, _, ht, hwrote, S_wordOfSigned (BitVec.le_toInt _) BitVec.toInt_lt⟩

/-- Settles O24, by `U_withRight`: 32 or 64 bits of `din` fit the `right` limb. -/
theorem unsignedLoadsAreExact : Obligations.UnsignedLoadsAreExact := by
  refine fun s rd => ⟨?ldu32, ?ldu64⟩
  case ldu32 =>
    obtain ⟨t, ht, hwrote⟩ := finishWrite_next s rd (withRight (zext (din32 s)))
    have hv : zext (din32 s) = s.port.din.toNat % 2 ^ 32 := BitVec.extractLsb'_toNat ..
    refine ⟨t, _, ht, hwrote, ?_⟩
    rw [U_withRight, hv]
    omega
  case ldu64 =>
    obtain ⟨t, ht, hwrote⟩ := finishWrite_next s rd (withRight (zext (din64 s)))
    have hv : zext (din64 s) = s.port.din.toNat % 2 ^ 64 := BitVec.extractLsb'_toNat ..
    refine ⟨t, _, ht, hwrote, ?_⟩
    rw [U_withRight, hv, Nat.mod_mod]

/-! ### The double load -/

/-- The biased exponent field (41_construction.md R70). -/
theorem decompose_e (d : BitVec 64) : (decompose d).e = ((d.toNat / 2 ^ 52 % 2 ^ 11 : Nat) : Int) - 1023 := by
  simp only [decompose, zext, Config.expBias, BitVec.extractLsb'_toNat, Nat.shiftRight_eq_div_pow]

/-- The leading 1 stands above the 52 fraction bits, for every input (41_construction.md R70). -/
theorem decompose_m_toNat (d : BitVec 64) : (decompose d).m.toNat = 2 ^ 52 + d.toNat % 2 ^ 52 := by
  have hfraction : (d.extractLsb' 0 52).toNat = d.toNat % 2 ^ 52 := BitVec.extractLsb'_toNat ..
  simp only [decompose, BitVec.toNat_append, hfraction]
  rw [← Nat.shiftLeft_add_eq_or_of_lt (Nat.mod_lt _ (by decide))]
  rfl

theorem decompose_sgn (d : BitVec 64) : (decompose d).sgn = decide (d.toNat / 2 ^ 63 = 1) := by
  have hlt := d.isLt
  rw [decompose, ← BitVec.testBit_toNat, Nat.testBit_eq_decide_div_mod_eq, Nat.mod_eq_of_lt (by omega)]

/-- A bit placed at a position inside the word replaces that bit, and one outside is dropped
(41_construction.md R71). -/
theorem getBit_setIfInside (W : Word) (p : Int) (b : Bool) (i : BitIdx) :
    getBit (setIfInside W p b) i = if (i.val : Int) = p then b else getBit W i := by
  unfold setIfInside
  split
  case isTrue hin =>
    rw [getBit_setBit]
    exact if_congr (by rw [Fin.ext_iff]; show i.val = p.toNat ↔ _; omega) rfl rfl
  case isFalse hout => rw [if_neg (by omega)]

/-- With `k` mantissa bits to place, word bit `i` takes mantissa bit `243 - e - i` if that is one of them, and keeps
what it was if it is not (41_construction.md R71). -/
theorem getBit_placeMantissa (e : Int) (m : BitVec 53) (k : Nat) (W : Word) (i : BitIdx) :
    getBit (placeMantissa e m k W) i =
      if 0 ≤ 243 - e - i ∧ 243 - e - i < k then m.getLsbD (243 - e - i).toNat else getBit W i := by
  induction k generalizing W with
  | zero => rw [placeMantissa, if_neg (by omega)]
  | succ k ih =>
    rw [placeMantissa, ih, getBit_setIfInside]
    by_cases hplace : 243 - e - i = k
    · rw [if_neg (by omega), if_pos (by omega), if_pos (by omega), hplace, Int.toNat_natCast]
    · rw [if_neg (show ¬ (i.val : Int) = 243 - e - k by omega)]
      exact if_congr (by omega) rfl rfl

/-- `floor(m * 2^(E - 1011))`: the mantissa `m` at the place of the biased exponent `E` (41_construction.md R72).
`wordOfBinary64_eq` ties it to the converter. -/
def fixedMagnitude (E m : Nat) : Nat := if 1011 ≤ E then m * 2 ^ (E - 1011) else m / 2 ^ (1011 - E)

theorem fixedMagnitude_testBit (E m p : Nat) :
    (fixedMagnitude E m).testBit p = (decide (E ≤ p + 1011) && m.testBit (p + 1011 - E)) := by
  unfold fixedMagnitude
  split
  case isTrue hE =>
    rw [Nat.testBit_mul_two_pow, show p - (E - 1011) = p + 1011 - E by omega,
      decide_eq_decide.2 (show E - 1011 ≤ p ↔ E ≤ p + 1011 by omega)]
  case isFalse hE =>
    rw [decide_eq_true (show E ≤ p + 1011 by omega), Bool.true_and, Nat.add_sub_assoc (by omega)]
    exact Nat.testBit_div_two_pow m p

/-- The placed mantissa, bit for bit the magnitude modulo 2^256 (41_construction.md R72). -/
theorem placeMantissa_eq_word (E : Nat) (m : BitVec 53) :
    placeMantissa ((E : Int) - 1023) m 53 zeroWord = word (fixedMagnitude E m.toNat) := word_ext fun i => by
  have hplace : 243 - ((E : Int) - 1023) - i = ((255 - i.val + 1011 : Nat) : Int) - E := by omega
  rw [getBit_placeMantissa, hplace, getBit_zeroWord, word, getBit_eq_getLsbD, BitVec.ofInt_natCast,
    BitVec.getLsbD_ofNat, decide_eq_true (by omega), Bool.true_and, fixedMagnitude_testBit, BitVec.testBit_toNat]
  by_cases hbelow : E ≤ 255 - i.val + 1011
  · rw [decide_eq_true hbelow, Bool.true_and, ← Nat.cast_sub hbelow, Int.toNat_natCast]
    split
    case isTrue => rfl
    case isFalse hout => exact (BitVec.getLsbD_of_ge m _ (by omega)).symm
  · rw [decide_eq_false hbelow, Bool.false_and, if_neg (by omega)]

/-- The converter in closed form (41_construction.md R72). -/
theorem wordOfBinary64_eq (d : BitVec 64) :
    wordOfBinary64 d =
      if d.toNat / 2 ^ 63 = 1
      then word (-(fixedMagnitude (d.toNat / 2 ^ 52 % 2 ^ 11) (2 ^ 52 + d.toNat % 2 ^ 52) : Int))
      else word (fixedMagnitude (d.toNat / 2 ^ 52 % 2 ^ 11) (2 ^ 52 + d.toNat % 2 ^ 52)) := by
  rw [wordOfBinary64, decompose_e, placeMantissa_eq_word, decompose_m_toNat, decompose_sgn, negate_eq_neg,
    ← BitVec.ofInt_neg]
  simp only [decide_eq_true_eq]

/-- Settles O25, by `wordOfBinary64_eq`. -/
theorem doubleLoadClosedForm : Obligations.DoubleLoadClosedForm := by
  rintro s rd d E m mag rfl rfl rfl rfl
  obtain ⟨t, ht, hwrote⟩ := finishWrite_next s rd (wordOfBinary64 (din64 s))
  have hd : (din64 s).toNat = s.port.din.toNat % 2 ^ 64 := BitVec.extractLsb'_toNat ..
  exact ⟨t, _, ht, hwrote, hd ▸ wordOfBinary64_eq (din64 s)⟩

/-- Outside these exponents every mantissa bit falls below the word or above it (41_construction.md R73). -/
theorem dvd_fixedMagnitude_of_outOfRange {E m : Nat} (hm : m < 2 ^ 53) (hE : E ≤ 958 ∨ 1267 ≤ E) :
    2 ^ 256 ∣ fixedMagnitude E m := by
  unfold fixedMagnitude
  obtain hlow | hhigh := hE
  · have hfloor : m / 2 ^ (1011 - E) = 0 :=
      Nat.div_eq_of_lt (hm.trans_le (Nat.pow_le_pow_right (by decide) (by omega)))
    rw [if_neg (by omega), hfloor]
    exact Nat.dvd_zero _
  · rw [if_pos (by omega)]
    exact (Nat.pow_dvd_pow 2 (by omega)).mul_left m

/-- Settles O26, from the closed form: the magnitude is 0 modulo 2^256, and so is its negation. -/
theorem doubleLoadOutOfRangeGivesZero : Obligations.DoubleLoadOutOfRangeGivesZero := by
  intro s rd E hE hrange
  obtain ⟨t, v, ht, hwrote, hv⟩ := doubleLoadClosedForm s rd _ E _ _ rfl (by omega) rfl rfl
  have hdvd : (2 ^ 256 : Int) ∣ fixedMagnitude E (2 ^ 52 + s.port.din.toNat % 2 ^ 64 % 2 ^ 52) := by
    exact_mod_cast dvd_fixedMagnitude_of_outOfRange (by omega) hrange
  have hzero : v = 0#256 := by
    rw [hv]
    split
    · exact word_eq_zero_of_dvd (Int.dvd_neg.2 hdvd)
    · exact word_eq_zero_of_dvd hdvd
  exact ⟨t, ht, hzero ▸ hwrote⟩

theorem V_word_of_range {n : Int} (hlow : -2 ^ 255 ≤ n) (hhigh : n < 2 ^ 255) : V (word n) = n / 2 ^ 64 := by
  rw [V, S_word_of_range hlow hhigh]

/-- Up to biased exponent 1213 the mantissa stays below the sign bit (41_construction.md R72). -/
theorem shiftedMantissa_lt {E m : Nat} (hm : m < 2 ^ 53) (hE : E ≤ 1213) : m * 2 ^ (E - 1011) < 2 ^ 255 :=
  calc m * 2 ^ (E - 1011) < 2 ^ 53 * 2 ^ (E - 1011) := Nat.mul_lt_mul_of_pos_right hm (Nat.two_pow_pos _)
    _ ≤ 2 ^ 53 * 2 ^ 202 := Nat.mul_le_mul_left _ (Nat.pow_le_pow_right (by decide) (by omega))
    _ = 2 ^ 255 := by decide

/-- The value of the mantissa at its place: the word's unit is 2^-64, the mantissa's 2^-52. -/
theorem shiftedMantissa_div_unit {E : Nat} (m : Nat) (hE : 1011 ≤ E) :
    ((m * 2 ^ (E - 1011) : Nat) : ℚ) / 2 ^ 64 = m * (2 : ℚ) ^ ((E : Int) - 1075) := by
  have hexp : (E : Int) - 1075 = ((E - 1011 : Nat) : Int) - (64 : Nat) := by omega
  rw [hexp, zpow_sub₀ two_ne_zero, zpow_natCast, zpow_natCast]
  push_cast
  ring

/-- Settles O27, from the closed form: nothing is cut off below and the magnitude is below 2^255. -/
theorem doubleLoadIsExactInRange : Obligations.DoubleLoadIsExactInRange := by
  intro s rd d E m hd hE hm hlow hhigh
  obtain ⟨t, v, ht, hwrote, hv⟩ := doubleLoadClosedForm s rd d E m _ hd hE hm (if_pos hlow).symm
  have hlt : m * 2 ^ (E - 1011) < 2 ^ 255 := shiftedMantissa_lt (by omega) hhigh
  refine ⟨t, v, ht, hwrote, ?_⟩
  rw [hv, mul_assoc, ← shiftedMantissa_div_unit m hlow]
  split
  case isTrue =>
    rw [V_word_of_range (by omega) (by omega), Int.cast_neg, Int.cast_natCast]
    ring
  case isFalse =>
    rw [V_word_of_range (by omega) (by omega), Int.cast_natCast, one_mul]

/-! ### The literal load -/

/-- What a character, if there is one, leaves in its bit: `'1'` sets it, `'0'` clears it, any other character and no
character at all keep it (41_construction.md R74, 92_eei_decisions.md D12). -/
def digitBit (ch : Option Byte) (old : Bool) : Bool :=
  if ch = some Config.chOne then true else if ch = some Config.chZero then false else old

/-- In a bit that is 0 only a `'1'` leaves a 1. -/
theorem digitBit_false (ch : Option Byte) : digitBit ch false = decide (ch = some Config.chOne) := by
  unfold digitBit
  by_cases hone : ch = some Config.chOne <;> simp [hone]

/-- The character at place `j` acts on word bit `255 - j` alone, and the rest follows from the next place on. -/
theorem placeDigits_cons (ch : Byte) (rest : List Byte) {j : Nat} (hj : j ≤ 255) (W : Word) :
    ∃ W', placeDigits (ch :: rest) j W = placeDigits rest (j + 1) W' ∧
      ∀ i : BitIdx, getBit W' i = if i.val = 255 - j then digitBit (some ch) (getBit W i) else getBit W i := by
  have hplace (i : BitIdx) : (i.val : Int) = 255 - j ↔ i.val = 255 - j := by omega
  rw [placeDigits, if_neg (by omega)]
  unfold digitBit
  by_cases hone : ch = Config.chOne
  · exact ⟨_, if_pos hone, fun i => by simp only [getBit_setIfInside, hplace, hone, if_true]⟩
  by_cases hzero : ch = Config.chZero
  · have hne : Config.chZero ≠ Config.chOne := by decide
    refine ⟨_, by rw [if_neg hone, if_pos hzero], fun i => ?_⟩
    simp only [getBit_setIfInside, hplace, hzero, Option.some.injEq, hne, if_true, if_false]
  · refine ⟨W, by rw [if_neg hone, if_neg hzero], fun i => ?_⟩
    simp only [Option.some.injEq, hone, hzero, if_false, ite_self]

/-- The characters from place `j` on each act on the bit of their place (41_construction.md R74). -/
theorem getBit_placeDigits (l : List Byte) (j : Nat) (W : Word) (i : BitIdx) :
    getBit (placeDigits l j W) i =
      if j ≤ 255 - i.val then digitBit l[255 - i.val - j]? (getBit W i) else getBit W i := by
  induction l generalizing j W with
  | nil => simp [placeDigits, digitBit]
  | cons ch rest ih =>
    by_cases hj : j ≤ 255
    · obtain ⟨W', hstep, hW'⟩ := placeDigits_cons ch rest hj W
      rw [hstep, ih, hW']
      rcases Nat.lt_trichotomy j (255 - i.val) with hlater | hhere | hpast
      · rw [if_pos (by omega), if_neg (by omega), if_pos hlater.le,
          show 255 - i.val - j = 255 - i.val - (j + 1) + 1 by omega, List.getElem?_cons_succ]
      · rw [if_neg (by omega), if_pos (by omega), if_pos hhere.le, ← hhere, Nat.sub_self, List.getElem?_cons_zero]
      · rw [if_neg (by omega), if_neg (by omega), if_neg (by omega)]
    · rw [placeDigits, if_pos (by omega), if_neg (by omega)]

/-- After the two bytes of `"0b"` the characters are placed from the last one back (41_construction.md R74). -/
theorem parseLiteral_of_leadBytes (digits : List Byte) :
    parseLiteral (Config.chZero :: Config.chB :: digits) = placeDigits digits.reverse 0 zeroWord := by
  rw [parseLiteral, if_pos ⟨rfl, rfl⟩]

theorem parseLiteral_of_no_leadBytes {t : List Byte} (h : ¬ ∃ digits, t = Config.chZero :: Config.chB :: digits) :
    parseLiteral t = zeroWord := by
  unfold parseLiteral
  split
  case h_1 c0 c1 digits =>
    exact if_neg fun ⟨h0, h1⟩ => h ⟨digits, by rw [h0, h1]⟩
  case h_2 => rfl

/-- Settles O28: without the two bytes of `"0b"` by `parseLiteral_of_no_leadBytes`; with them by `getBit_placeDigits`
from the zero word. -/
theorem literalLoadMapsCharactersRightAligned : Obligations.LiteralLoadMapsCharactersRightAligned := by
  intro s rd
  obtain ⟨t, ht, hwrote⟩ := finishWrite_next s rd (parseLiteral (tinText s))
  refine ⟨t, _, ht, hwrote, fun hno => parseLiteral_of_no_leadBytes hno, fun digits htin i => ?_⟩
  have hload : parseLiteral (tinText s) = placeDigits digits.reverse 0 zeroWord :=
    (congrArg parseLiteral htin).trans (parseLiteral_of_leadBytes digits)
  rw [hload, getBit_placeDigits, if_pos (Nat.zero_le _), getBit_zeroWord, Nat.sub_zero, digitBit_false]
  rfl

/-! ### Reading an integer back -/

theorem limb_right_eq_ofNat (W : Word) : limb W .right = BitVec.ofNat 64 (U W / 2 ^ 64) :=
  BitVec.eq_of_toNat_eq ((limb_toNat W .right).trans (BitVec.toNat_ofNat ..).symm)

/-- The converter truncates toward zero, modulo 2^64 (46_conversion.md R117, R123). A negative word is minus the
unsigned reading of its negation, the most negative word included. -/
theorem toInt64Bits_eq_ofInt_tdiv (W : Word) : toInt64Bits W = BitVec.ofInt 64 ((S W).tdiv (2 ^ 64)) := by
  have htrunc (X : Word) : BitVec.ofInt 64 ((U X : Int).tdiv (2 ^ 64)) = limb X .right := by
    rw [limb_right_eq_ofNat, ← BitVec.ofInt_natCast]
    rfl
  rw [toInt64Bits, getBit_signIdx, negate_eq_neg]
  cases hsign : W.msb with
  | true =>
    have hS : S W = -(U (-W) : Int) := BitVec.toInt_eq_neg_toNat_neg_of_msb_true hsign
    rw [if_pos rfl, hS, Int.neg_tdiv, BitVec.ofInt_neg, htrunc]
  | false =>
    have hS : S W = U W := BitVec.toInt_eq_toNat_of_msb hsign
    rw [if_neg Bool.false_ne_true, hS, htrunc]

theorem toInt64Bits_wordOfSigned {v : Int} (hlow : -2 ^ 63 ≤ v) (hhigh : v < 2 ^ 63) :
    toInt64Bits (wordOfSigned v) = BitVec.ofInt 64 v := by
  rw [toInt64Bits_eq_ofInt_tdiv, S_wordOfSigned hlow hhigh, Int.mul_tdiv_cancel _ (by decide)]

/-- The low `n` bits of an `n`-bit pattern in a 256-bit port are the pattern (20_memory.md R33, R34). -/
theorem extractLsb'_setWidth_port {n : Nat} (hn : n ≤ 256) (x : BitVec n) :
    (x.setWidth 256).extractLsb' 0 n = x := by
  rw [BitVec.extractLsb'_setWidth_of_le (by omega), BitVec.extractLsb'_eq_self]

/-- A presented command runs: the encoder's word decodes to it (30_encoding.md R53). -/
theorem step_present {s : State} {i : Instr} {din : BitVec 256} {tin : List Byte} {rest : List HostEvent}
    (hpending : s.pending = .command (present i din tin) :: rest) (hwf : i.wellFormed = true) :
    step s = exec i (acceptCommand s (present i din tin) rest) :=
  step_of_decode_some hpending (decodeOfEncodeIsTheCommand i hwf)

/-- Settles O52: the first step writes `wordOfSigned v`, the second reads it back (`toInt64Bits_wordOfSigned`). -/
theorem loadedIntegerIsReadBackUnchanged : Obligations.LoadedIntegerIsReadBackUnchanged := by
  intro s r v din tin hlow hhigh
  have hself : (BitVec.ofInt 64 v).toInt = v := BitVec.toInt_ofInt_eq_self (by decide) hlow hhigh
  have hsent : ((payload 64 v).extractLsb' 0 64).toInt = v :=
    (congrArg BitVec.toInt (extractLsb'_setWidth_port (by decide) _)).trans hself
  obtain ⟨t, hload, hword, -, -, -, hpending⟩ := finishWrite_next
    (acceptCommand s (present (.ldi64 r) (payload 64 v) tin) [.command (present (.cvti64 r) din tin)])
    r (wordOfSigned ((payload 64 v).extractLsb' 0 64).toInt)
  obtain ⟨u, hread, -, hrsp, -, hdone⟩ := finishOutput_next (acceptCommand t (present (.cvti64 r) din tin) [])
    ((toInt64Bits (readReg t r)).setWidth 256) []
  refine ⟨u, ?run, ?value, congrArg Response.status hrsp, hdone⟩
  case run =>
    have hstep₁ := (step_present (s := { s with pending := _ }) (i := .ldi64 r) rfl rfl).trans hload
    have hstep₂ : step t = .next u := (step_present hpending rfl).trans hread
    exact (run_of_next hstep₁).trans ((run_one t).trans hstep₂)
  case value =>
    rw [deliveredI64, hrsp, extractLsb'_setWidth_port (by decide), hword, hsent,
      toInt64Bits_wordOfSigned hlow hhigh, hself]

end Sys2Proof.Machine

/-! PROOFS. The family of spec/42_negate_increment.md: the steps in closed form (`incFrom_eq_add`, `decFrom_eq_sub`)
and bit by bit (`getBit_incScan`), the decrement as the mirror of the increment (`decFrom_eq_flip_incFrom_flip`), and,
for the law on a word and its negation, the adder as addition modulo 2^256 (`add_eq_add`). -/

namespace Sys2Proof.Machine

/-! ### Commands that write a word with a property -/

/-- A command that ends in a register write completes with any property of the word it writes. -/
theorem exec_writes {i : Instr} {s : State} {rd : Reg} {w : Word} {P : Word → Prop}
    (hexec : exec i s = finishWrite s rd w) (hw : P w) :
    ∃ t v, exec i s = .next t ∧ WroteOnly s t rd v ∧ P v := by
  obtain ⟨t, ht, hwrote⟩ := finishWrite_next s rd w
  exact ⟨t, w, hexec.trans ht, hwrote, hw⟩

/-! ### The steps modulo 2^256 -/

/-- 42_negate_increment.md R83. -/
theorem U_incFrom_fracLsbIdx (W : Word) : U (incFrom W Config.fracLsbIdx) = (U W + 1) % 2 ^ 256 := by
  rw [U, incFrom_eq_add, bitWeight_fracLsbIdx, BitVec.toNat_add, BitVec.toNat_one (by decide)]

/-- 42_negate_increment.md R84. -/
theorem U_decFrom_fracLsbIdx (W : Word) : U (decFrom W Config.fracLsbIdx) = (U W + (2 ^ 256 - 1)) % 2 ^ 256 := by
  rw [U, decFrom_eq_sub, bitWeight_fracLsbIdx, BitVec.toNat_sub, BitVec.toNat_one (by decide), Nat.add_comm]

/-- Settles O30, by the closed form of each step; the integer steps are by multiples of 2^64, the weight above the
fractional limb. -/
theorem unitStepsClosedForm : Obligations.UnitStepsClosedForm := by
  intro s rd ra
  have hinci := U_incFrom_intLsbIdx (readReg s ra)
  have hdeci := U_decFrom_intLsbIdx (readReg s ra)
  exact ⟨exec_writes rfl (U_incFrom_fracLsbIdx _), exec_writes rfl (U_decFrom_fracLsbIdx _),
    exec_writes rfl ⟨hinci, by omega⟩, exec_writes rfl ⟨hdeci, by omega⟩⟩

/-! ### The steps bit by bit -/

/-- The increment's scan of the indexes below `n` visits index `i`: every bit it meets on the way there is 1
(42_negate_increment.md R80). -/
def ScanVisits (W : Word) (n : Nat) (i : BitIdx) : Prop :=
  i.val < n ∧ ∀ j, i < j → j.val < n → getBit W j = true

theorem not_scanVisits_zero (W : Word) (i : BitIdx) : ¬ ScanVisits W 0 i := fun h => Nat.not_lt_zero _ h.1

/-- The scan visits its start, and goes on below it when the bit there is 1. -/
theorem scanVisits_succ {W : Word} {k : Nat} (hk : k < 256) (i : BitIdx) :
    ScanVisits W (k + 1) i ↔ i = ⟨k, hk⟩ ∨ (getBit W ⟨k, hk⟩ = true ∧ ScanVisits W k i) := by
  constructor
  · rintro ⟨hi, hrun⟩
    rcases Nat.lt_succ_iff_lt_or_eq.1 hi with hlt | heq
    · exact .inr ⟨hrun ⟨k, hk⟩ hlt k.lt_succ_self, hlt, fun j hij hj => hrun j hij (Nat.lt_succ_of_lt hj)⟩
    · exact .inl (Fin.ext heq)
  · rintro (rfl | ⟨hbit, hi, hrun⟩)
    · exact ⟨k.lt_succ_self, fun j hij hj => absurd hj (Nat.not_lt.2 hij)⟩
    · refine ⟨Nat.lt_succ_of_lt hi, fun j hij hj => ?_⟩
      rcases Nat.lt_succ_iff_lt_or_eq.1 hj with hlt | heq
      · exact hrun j hij hlt
      · rwa [show j = ⟨k, hk⟩ from Fin.ext heq]

/-- What the scan writes at an index does not change which indexes below it are visited. -/
theorem scanVisits_setBit (W : Word) {k : Nat} (hk : k < 256) (b : Bool) (i : BitIdx) :
    ScanVisits (setBit W ⟨k, hk⟩ b) k i ↔ ScanVisits W k i := by
  refine and_congr_right fun _ => forall_congr' fun j => imp_congr_right fun _ => imp_congr_right fun hj => ?_
  rw [getBit_setBit, if_neg fun h => absurd (congrArg Fin.val h) (Nat.ne_of_lt hj)]

open Classical in
/-- The increment inverts the bits its scan visits and no other. -/
theorem getBit_incScan (n : Nat) (h : n ≤ 256) (W : Word) (i : BitIdx) :
    getBit (incScan n h W) i = if ScanVisits W n i then !getBit W i else getBit W i := by
  induction n generalizing W with
  | zero => rw [incScan, if_neg (not_scanVisits_zero W i)]
  | succ k ih =>
    have hself : ¬ ScanVisits W k ⟨k, h⟩ := fun hv => absurd hv.1 (Nat.lt_irrefl k)
    simp only [incScan, scanVisits_succ h i]
    split
    case isTrue hbit =>
      simp only [ih, getBit_setBit, scanVisits_setBit]
      by_cases hi : i = ⟨k, h⟩ <;> simp [hi, hbit, hself]
    case isFalse hbit =>
      rw [getBit_setBit]
      by_cases hi : i = ⟨k, h⟩ <;> simp [hi, hbit]

theorem getBit_incFrom_of_start_lt (W : Word) {p i : BitIdx} (h : p < i) : getBit (incFrom W p) i = getBit W i := by
  rw [incFrom, getBit_incScan, if_neg fun hv => absurd hv.1 (Nat.not_lt.2 (Nat.succ_le_of_lt h))]

theorem getBit_incFrom_of_ones {W : Word} {p i : BitIdx} (hi : i ≤ p)
    (hones : ∀ j, i < j → j ≤ p → getBit W j = true) : getBit (incFrom W p) i = !getBit W i := by
  rw [incFrom, getBit_incScan, if_pos ⟨Nat.lt_succ_of_le hi, fun j hij hj => hones j hij (Nat.le_of_lt_succ hj)⟩]

theorem getBit_incFrom_of_lt_zeroBit {W : Word} {p q i : BitIdx} (hq : q ≤ p) (hbit : getBit W q = false)
    (hi : i < q) : getBit (incFrom W p) i = getBit W i := by
  rw [incFrom, getBit_incScan, if_neg]
  rintro ⟨-, hones⟩
  rw [hones q hi (Nat.lt_succ_of_le hq)] at hbit
  cases hbit

/-- The decrement is the mirror of the increment (42_negate_increment.md R81). -/
theorem decFrom_eq_flip_incFrom_flip (W : Word) (p : BitIdx) : decFrom W p = flipBits (incFrom (flipBits W) p) := by
  rw [decFrom_eq_sub, incFrom_eq_add, flipBits_eq_not, flipBits_eq_not, BitVec.not_eq_neg_add, BitVec.not_eq_neg_add]
  abel

theorem getBit_decFrom (W : Word) (p i : BitIdx) : getBit (decFrom W p) i = !getBit (incFrom (flipBits W) p) i := by
  rw [decFrom_eq_flip_incFrom_flip, getBit_flipBits]

theorem getBit_decFrom_of_start_lt (W : Word) {p i : BitIdx} (h : p < i) : getBit (decFrom W p) i = getBit W i := by
  rw [getBit_decFrom, getBit_incFrom_of_start_lt _ h, getBit_flipBits, Bool.not_not]

theorem getBit_decFrom_of_zeros {W : Word} {p i : BitIdx} (hi : i ≤ p)
    (hzeros : ∀ j, i < j → j ≤ p → getBit W j = false) : getBit (decFrom W p) i = !getBit W i := by
  have hones (j : BitIdx) (hij : i < j) (hj : j ≤ p) : getBit (flipBits W) j = true := by
    rw [getBit_flipBits, hzeros j hij hj, Bool.not_false]
  rw [getBit_decFrom, getBit_incFrom_of_ones hi hones, getBit_flipBits, Bool.not_not]

theorem getBit_decFrom_of_lt_oneBit {W : Word} {p q i : BitIdx} (hq : q ≤ p) (hbit : getBit W q = true)
    (hi : i < q) : getBit (decFrom W p) i = getBit W i := by
  have hzero : getBit (flipBits W) q = false := by rw [getBit_flipBits, hbit, Bool.not_true]
  rw [getBit_decFrom, getBit_incFrom_of_lt_zeroBit hq hzero hi, getBit_flipBits, Bool.not_not]

/-- Settles O31: a bit is inverted when the scan gets to it, past 1-bits alone (0-bits for the decrement), and is as it
was otherwise. -/
theorem rippleScanStopsAtFirstFreeBit : Obligations.RippleScanStopsAtFirstFreeBit := by
  intro W p i
  refine ⟨fun hi => ⟨getBit_incFrom_of_start_lt W hi, getBit_decFrom_of_start_lt W hi⟩,
    fun q hq hbit hones => ⟨?incStop, fun hqi hi => ?incPassed, getBit_incFrom_of_lt_zeroBit hq hbit⟩,
    fun q hq hbit hzeros => ⟨?decStop, fun hqi hi => ?decPassed, getBit_decFrom_of_lt_oneBit hq hbit⟩,
    fun hones hi => ?incAll, fun hzeros hi => ?decAll⟩
  case incStop => rw [getBit_incFrom_of_ones hq hones, hbit, Bool.not_false]
  case incPassed => rw [getBit_incFrom_of_ones hi fun j hij => hones j (hqi.trans hij), hones i hqi hi, Bool.not_true]
  case decStop => rw [getBit_decFrom_of_zeros hq hzeros, hbit, Bool.not_true]
  case decPassed =>
    rw [getBit_decFrom_of_zeros hi fun j hij => hzeros j (hqi.trans hij), hzeros i hqi hi, Bool.not_false]
  case incAll => rw [getBit_incFrom_of_ones hi fun j _ => hones j, hones i hi, Bool.not_true]
  case decAll => rw [getBit_decFrom_of_zeros hi fun j _ => hzeros j, hzeros i hi, Bool.not_false]

/-! ### Negation -/

/-- Settles O32, by `negate_eq_neg`; the word `2^255` is the most negative one. -/
theorem negateClosedForm : Obligations.NegateClosedForm := by
  intro s rd ra
  have hmin : U (readReg s ra) = 2 ^ 255 ↔ readReg s ra = BitVec.intMin 256 := by
    rw [← BitVec.toNat_inj, BitVec.toNat_intMin_of_pos (by decide)]
  refine exec_writes (w := negate (readReg s ra)) rfl ?_
  rw [negate_eq_neg]
  exact ⟨BitVec.toNat_neg _, fun h => BitVec.toInt_neg_of_ne_intMin (mt hmin.2 h),
    fun h => by rw [hmin.1 h, BitVec.neg_intMin]⟩

/-! ### The adder as addition modulo 2^256 -/

theorem carryBit_toNat (c : Bool) : (carryBit c).toNat = c.toNat := by cases c <;> rfl

/-- The limb's own sum carries out (43_add_sub.md R94). -/
theorem carryD1_iff (a b : LimbWord) : carryD1 a b = true ↔ 2 ^ 64 ≤ a.toNat + b.toNat := by
  have ha := a.isLt
  have hle : a ≤ BitVec.allOnes 64 := BitVec.le_def.2 (Nat.le_pred_of_lt ha)
  rw [carryD1, limbMax, decide_eq_true_iff, BitVec.lt_def, BitVec.toNat_sub_of_le hle, BitVec.toNat_allOnes]
  omega

/-- A carry comes into a limb that is full (43_add_sub.md R94). -/
theorem carryD2_iff {L : Limb} (hL : L ≠ .fractional) (a b : LimbWord) (c : Bool) :
    carryD2 L a b c = true ↔ (a.toNat + b.toNat) % 2 ^ 64 = 2 ^ 64 - 1 ∧ c = true := by
  simp [carryD2, limbMax, hL, ← BitVec.toNat_inj]

/-- The carry out of a limb is the carry of the whole sum; no carry comes into the fractional limb (43_add_sub.md
R94). -/
theorem carryOut_iff {L : Limb} {c : Bool} (hL : L = .fractional → c = false) (a b : LimbWord) :
    carryOut L a b c = true ↔ 2 ^ 64 ≤ a.toNat + b.toNat + c.toNat := by
  have ha := a.isLt
  have hb := b.isLt
  rw [carryOut, Bool.or_eq_true, carryD1_iff]
  cases c with
  | false => simp [carryD2]
  | true =>
    rw [carryD2_iff fun h => Bool.noConfusion (hL h), Bool.toNat_true, eq_self, and_true]
    omega

/-- A limb's sum and its carry out hold the whole sum of the two limbs and the carry in. -/
theorem limb_sum_add_carryOut {L : Limb} {c : Bool} (hL : L = .fractional → c = false) (a b : LimbWord) :
    (a + b + carryBit c).toNat + (carryOut L a b c).toNat * 2 ^ 64 = a.toNat + b.toNat + c.toNat := by
  have ha := a.isLt
  have hb := b.isLt
  have hc := c.toNat_lt
  rw [BitVec.toNat_add, BitVec.toNat_add, carryBit_toNat]
  cases hout : carryOut L a b c with
  | false =>
    have hsum : ¬ 2 ^ 64 ≤ a.toNat + b.toNat + c.toNat := mt (carryOut_iff hL a b).2 (Bool.eq_false_iff.1 hout)
    rw [Bool.toNat_false]
    omega
  | true =>
    have hsum : 2 ^ 64 ≤ a.toNat + b.toNat + c.toNat := (carryOut_iff hL a b).1 hout
    rw [Bool.toNat_true]
    omega

/-- Each limb hands its carry to the next one up, so the four sums are the sum of the words but for the last carry,
which is lost (43_add_sub.md R93, R95). -/
theorem U_add (A B : Word) : U (add A B) = (U A + U B) % 2 ^ 256 := by
  have hlimb (L : Limb) (c : Bool) (hL : L = .fractional → c = false) :=
    limb_sum_add_carryOut hL (limb A L) (limb B L)
  rw [U_eq_sum_limbs A, U_eq_sum_limbs B, U_eq_sum_limbs (add A B)]
  simp only [add_limbs, addLimb, limb_setLimb, reduceCtorEq, if_true, if_false]
  have hfractional := hlimb .fractional false fun _ => rfl
  generalize carryOut .fractional (limb A .fractional) (limb B .fractional) false = c at hfractional ⊢
  have hright := hlimb .right c nofun
  generalize carryOut .right (limb A .right) (limb B .right) c = d at hright ⊢
  have hmiddle := hlimb .middle d nofun
  generalize carryOut .middle (limb A .middle) (limb B .middle) d = e at hmiddle ⊢
  have hleft := hlimb .left e nofun
  rw [Bool.toNat_false] at hfractional
  omega

theorem add_eq_add (A B : Word) : add A B = A + B :=
  BitVec.eq_of_toNat_eq ((U_add A B).trans (BitVec.toNat_add A B).symm)

/-! ### The laws of negation and of the steps -/

theorem incFrom_decFrom (W : Word) (p : BitIdx) : incFrom (decFrom W p) p = W := by
  rw [incFrom_eq_add, decFrom_eq_sub, sub_add_cancel]

theorem decFrom_incFrom (W : Word) (p : BitIdx) : decFrom (incFrom W p) p = W := by
  rw [incFrom_eq_add, decFrom_eq_sub, add_sub_cancel_right]

/-- Settles O33: `negate` and `add` are those of the integers modulo 2^256, and a step down is undone by the step up
from the same index, whichever it is. -/
theorem negationAndStepLaws : Obligations.NegationAndStepLaws := by
  refine fun a => ⟨?negNeg, ?addNeg, incFrom_decFrom a 255, decFrom_incFrom a 255, incFrom_decFrom a 191,
    decFrom_incFrom a 191⟩
  case negNeg => rw [negate_eq_neg, negate_eq_neg, neg_neg]
  case addNeg => rw [add_eq_add, negate_eq_neg, BitVec.add_right_neg]

end Sys2Proof.Machine

/-! PROOFS. The family of spec/43_add_sub.md: the carry test is exact (`carryOut_iff`), the subtractor is subtraction
modulo 2^256 (`sub_eq_sub`), and the signed readings of both wrap once at most, as the exact result is less than one
modulus away from the range (`bmod_eq_wrapSigned`). -/

namespace Sys2Proof.Machine

/-! ### The carry test -/

/-- A limb that carries by itself leaves a running sum below its maximum (43_add_sub.md R94). -/
theorem carryD2_eq_false_of_carryD1 {a b : LimbWord} (hcarry : carryD1 a b = true) (L : Limb) (c : Bool) :
    carryD2 L a b c = false := by
  have ha := a.isLt
  have hb := b.isLt
  have hsum := (carryD1_iff a b).1 hcarry
  have hbelow : a + b ≠ limbMax := fun hfull => by
    have hrunning : (a.toNat + b.toNat) % 2 ^ 64 = 2 ^ 64 - 1 := congrArg BitVec.toNat hfull
    omega
  rw [carryD2, beq_eq_false_iff_ne.2 hbelow, Bool.and_false, Bool.false_and]

/-- Settles O34, by `carryOut_iff` and `carryD2_eq_false_of_carryD1`. -/
theorem carryOutIsExact : Obligations.CarryOutIsExact := by
  refine fun L a b c hL => ⟨carryOut_iff hL a b, fun ⟨hd1, hd2⟩ => ?_⟩
  rw [carryD2_eq_false_of_carryD1 hd1] at hd2
  exact Bool.noConfusion hd2

/-! ### Unsigned closed forms -/

/-- Settles O35, by `U_add`. -/
theorem addClosedForm : Obligations.AddClosedForm :=
  fun _ _ _ _ => exec_writes rfl (U_add _ _)

/-- 43_add_sub.md R97. -/
theorem sub_eq_sub (A B : Word) : sub A B = A - B := by
  rw [sub, add_eq_add, negate_eq_neg, BitVec.sub_eq_add_neg]

theorem U_sub (A B : Word) : (U (sub A B) : Int) = ((U A : Int) - U B) % 2 ^ 256 := by
  have hB := B.isLt
  simp only [U, sub_eq_sub, BitVec.toNat_sub]
  omega

/-- Settles O36, by `U_sub`. -/
theorem subClosedForm : Obligations.SubClosedForm :=
  fun _ _ _ _ => exec_writes rfl (U_sub _ _)

/-! ### Signed readings -/

/-- An exact result brought back into the signed range by one modulus where it lies outside (43_add_sub.md R99). -/
def wrapSigned (r : Int) : Int :=
  if r < -2 ^ 255 then r + 2 ^ 256 else if 2 ^ 255 ≤ r then r - 2 ^ 256 else r

/-- Less than one modulus away from zero, the representative of least magnitude is one modulus away at most. -/
theorem bmod_eq_wrapSigned {r : Int} (hlow : -2 ^ 256 ≤ r) (hhigh : r < 2 ^ 256) :
    r.bmod (2 ^ 256) = wrapSigned r := by
  have hself {x : Int} (hx : -2 ^ 255 ≤ x) (hx' : x < 2 ^ 255) : x.bmod (2 ^ 256) = x :=
    Int.bmod_eq_of_le (by omega) (by omega)
  rw [wrapSigned]
  split
  case isTrue hbelow => exact (Int.add_bmod_right r _).symm.trans (hself (by omega) (by omega))
  case isFalse hnotBelow =>
    split
    case isTrue habove => exact (Int.sub_bmod_right r _).symm.trans (hself (by omega) (by omega))
    case isFalse hnotAbove => exact hself (by omega) (by omega)

theorem S_mem_range (W : Word) : -2 ^ 255 ≤ S W ∧ S W < 2 ^ 255 :=
  ⟨BitVec.le_toInt W, BitVec.toInt_lt⟩

theorem S_add (A B : Word) : S (add A B) = wrapSigned (S A + S B) := by
  obtain ⟨hAlow, hAhigh⟩ := S_mem_range A
  obtain ⟨hBlow, hBhigh⟩ := S_mem_range B
  rw [← bmod_eq_wrapSigned (by omega) (by omega), add_eq_add, S, BitVec.toInt_add]

theorem S_sub (A B : Word) : S (sub A B) = wrapSigned (S A - S B) := by
  obtain ⟨hAlow, hAhigh⟩ := S_mem_range A
  obtain ⟨hBlow, hBhigh⟩ := S_mem_range B
  rw [← bmod_eq_wrapSigned (by omega) (by omega), sub_eq_sub, S, BitVec.toInt_sub]

/-- Settles O37, by `S_add` and `S_sub`. -/
theorem signedSumAndDifferenceWrap : Obligations.SignedSumAndDifferenceWrap :=
  fun A B => ⟨S_add A B, S_sub A B⟩

end Sys2Proof.Machine

/-! PROOFS. The family of spec/44_multiply.md: the loop as a sum over the multiplier's bits (`mul_eq_word_termSum`),
that sum against the product (`termSum_bounds`), and the two cases in which it is the product modulo 2^256
(`mul_of_integer_multiplicand`, `mul_of_integer_multiplier`), from which the laws follow. -/

namespace Sys2Proof.Machine

/-! ### Readings of a word modulo 2^256 -/

theorem U_lt (W : Word) : U W < 2 ^ 256 := W.isLt

theorem word_add (m n : Int) : word (m + n) = word m + word n := BitVec.ofInt_add m n

theorem word_mul (m n : Int) : word (m * n) = word m * word n := BitVec.ofInt_mul m n

theorem word_S (W : Word) : word (S W) = W := BitVec.ofInt_toInt

theorem word_two_pow (i : Nat) : word (2 ^ i) = BitVec.twoPow 256 i := by
  have hnat : word (2 ^ i) = BitVec.ofNat 256 (2 ^ i) := mod_cast BitVec.ofInt_natCast 256 (2 ^ i)
  refine hnat.trans (BitVec.eq_of_toNat_eq ?_)
  rw [BitVec.toNat_ofNat, BitVec.toNat_twoPow]

theorem word_U (W : Word) : word (U W) = W := by
  rw [word, BitVec.ofInt_natCast, BitVec.ofNat_toNat, BitVec.setWidth_eq]

theorem U_word (n : Int) : (U (word n) : Int) = n % 2 ^ 256 := by
  rw [U, BitVec.toNat_ofInt, Int.toNat_of_nonneg (Int.emod_nonneg _ (by decide))]
  rfl

theorem word_sum (s : Finset Nat) (f : Nat → Int) : word (∑ j ∈ s, f j) = ∑ j ∈ s, word (f j) :=
  map_sum (AddMonoidHom.mk' word word_add) f s

/-- The two readings of a word differ by a multiple of 2^256, so they have the same fractional limb. -/
theorem S_emod_eq_U_mod (W : Word) : S W % 2 ^ 64 = (U W % 2 ^ 64 : Nat) := by
  rw [S, U, BitVec.toInt_eq_toNat_cond]
  split <;> omega

/-! ### The loop as a sum over the multiplier's bits -/

/-- The term of multiplier bit `j`, as a word: the bit's logical shift is `j - 64` (44_multiply.md R102). -/
def mulTerm (A B : Word) (j : Nat) : Word := if (U B).testBit j then shiftLeft A (j - 64) else 0

/-- The inner loop tests the lowest bits of the local copy in turn (44_multiply.md R103). -/
theorem mulBits_eq_sum (A : Word) (base : Int) (steps k : Nat) (x : LimbWord) (P : Word) :
    mulBits A base steps k x P =
      P + ∑ j ∈ Finset.range steps, if x.getLsbD j then shiftLeft A (base + (k + j : Nat)) else 0 := by
  induction steps generalizing k x P with
  | zero => exact (add_zero P).symm
  | succ n ih =>
    have hnext (j : Nat) : (x >>> 1).getLsbD j = x.getLsbD (j + 1) := by rw [BitVec.getLsbD_ushiftRight, Nat.add_comm]
    have hplace (j : Nat) : k + 1 + j = k + (j + 1) := by omega
    rw [mulBits, ih, Finset.sum_range_succ', add_eq_add]
    simp only [hnext, hplace, Nat.add_zero]
    split
    case isTrue hbit => rw [add_assoc, add_comm (shiftLeft _ _)]
    case isFalse hbit => rw [add_zero]

/-- One limb of the multiplier adds the terms of its own 64 bits. -/
theorem mulLimb_eq_sum (A B P : Word) {L : Limb} {base : Int} (hbase : base = limbLow L - 64) :
    mulLimb A B P (L, base) = P + ∑ j ∈ Finset.range 64, mulTerm A B (limbLow L + j) := by
  rw [mulLimb, mulBits_eq_sum]
  refine congrArg (P + ·) (Finset.sum_congr rfl fun j hj => ?_)
  have hshift : base + (0 + j : Nat) = (limbLow L + j : Nat) - 64 := by omega
  rw [mulTerm, limb_getLsbD B L j (Finset.mem_range.1 hj), ← BitVec.testBit_toNat, hshift]

/-- The limbs are consumed in the order of their bits (44_multiply.md R102). -/
theorem mul_eq_sum (A B : Word) : mul A B = ∑ j ∈ Finset.range 256, mulTerm A B j := by
  have hleft : (128 : Int) = limbLow .left - 64 := rfl
  have hmiddle : (64 : Int) = limbLow .middle - 64 := rfl
  have hright : (0 : Int) = limbLow .right - 64 := rfl
  have hfractional : (-64 : Int) = limbLow .fractional - 64 := rfl
  have hbits : Finset.range 256 = Finset.range (64 + 64 + 64 + 64) := rfl
  rw [mul_limbs, mulLimb_eq_sum A B _ hleft, mulLimb_eq_sum A B _ hmiddle, mulLimb_eq_sum A B _ hright,
    mulLimb_eq_sum A B _ hfractional, hbits, Finset.sum_range_add, Finset.sum_range_add, Finset.sum_range_add]
  simp only [limbLow, Nat.zero_add, Nat.reduceAdd, BitVec.zero_add]

theorem mul_two_pow_ediv (a : Int) {j : Nat} (h : j ≤ 64) : a * 2 ^ j / 2 ^ 64 = a / 2 ^ (64 - j) := by
  obtain ⟨i, hi⟩ := Nat.exists_eq_add_of_le h
  rw [hi, Nat.add_sub_cancel_left, pow_add, mul_comm a, Int.mul_ediv_mul_of_pos _ _ (by positivity)]

/-- A logical shift by `j - 64`, in either direction, is multiplication by 2^(j - 64), floored (44_multiply.md R103). -/
theorem shiftLeft_eq_word (A : Word) (j : Nat) : shiftLeft A (j - 64) = word (S A * 2 ^ j / 2 ^ 64) := by
  rw [shiftLeft]
  split
  case isTrue hleft =>
    obtain ⟨i, rfl⟩ : ∃ i, j = i + 64 := ⟨j - 64, by omega⟩
    have hamount : ((i + 64 : Nat) - 64 : Int).toNat = i := by omega
    rw [hamount, shl, BitVec.shiftLeft_eq_mul_twoPow, pow_add, ← mul_assoc, Int.mul_ediv_cancel _ (by decide),
      word_mul, word_S, word_two_pow]
  case isFalse hright =>
    have hamount : (-(j - 64 : Int)).toNat = 64 - j := by omega
    rw [hamount, shr, BitVec.sshiftRight_eq, Int.shiftRight_eq_div_pow, Nat.cast_pow, Nat.cast_ofNat,
      mul_two_pow_ediv _ (by omega)]

/-! ### The sum against the product -/

/-- The sum of the terms of multiplier bits 0 to `n - 1`, each one floored separately (44_multiply.md R104).
`mul_eq_word_termSum` ties it to `mul`. -/
def termSum (a : Int) (b n : Nat) : Int := ∑ j ∈ Finset.range n, if b.testBit j then a * 2 ^ j / 2 ^ 64 else 0

theorem mul_eq_word_termSum (A B : Word) : mul A B = word (termSum (S A) (U B) 256) := by
  rw [mul_eq_sum, termSum, word_sum]
  refine Finset.sum_congr rfl fun j _ => ?_
  rw [mulTerm, shiftLeft_eq_word]
  split <;> rfl

theorem termSum_succ (a : Int) (b n : Nat) :
    termSum a b (n + 1) = termSum a b n + if b.testBit n then a * 2 ^ n / 2 ^ 64 else 0 :=
  Finset.sum_range_succ _ n

/-- Only the bits below `n` count. -/
theorem termSum_congr {b c n : Nat} (h : b % 2 ^ n = c % 2 ^ n) (a : Int) : termSum a b n = termSum a c n := by
  refine Finset.sum_congr rfl fun j hj => ?_
  have hbit (x : Nat) : x.testBit j = (x % 2 ^ n).testBit j := by
    rw [Nat.testBit_mod_two_pow, decide_eq_true (Finset.mem_range.1 hj), Bool.true_and]
  rw [hbit b, h, ← hbit c]

theorem mod_two_pow_succ_eq (b n : Nat) : b % 2 ^ (n + 1) = b % 2 ^ n + 2 ^ n * (b.testBit n).toNat := by
  rw [Nat.mod_pow_succ, Nat.toNat_testBit]

/-- The terms of a multiplicand without a fractional part lose nothing. -/
theorem termSum_mul_two_pow (x : Int) (b n : Nat) : termSum (x * 2 ^ 64) b n = x * (b % 2 ^ n : Nat) := by
  induction n with
  | zero => rw [pow_zero, Nat.mod_one, Nat.cast_zero, mul_zero]; rfl
  | succ n ih =>
    rw [termSum_succ, ih, mod_two_pow_succ_eq, mul_right_comm, Int.mul_ediv_cancel _ (by decide)]
    cases b.testBit n <;> simp [mul_add]

/-- Each set bit loses less than one unit to its floor, and a bit that is not set loses nothing (44_multiply.md
R106 c). -/
theorem termSum_bounds (a : Int) (b n : Nat) :
    2 ^ 64 * termSum a b n ≤ a * (b % 2 ^ n : Nat) ∧
    a * (b % 2 ^ n : Nat) ≤ 2 ^ 64 * termSum a b n + (2 ^ 64 - 1) * (List.range n).countP fun j => b.testBit j := by
  induction n with
  | zero => simp [termSum, Nat.mod_one]
  | succ n ih =>
    have hfloor := Int.mul_ediv_add_emod (a * 2 ^ n) (2 ^ 64)
    rw [termSum_succ, mod_two_pow_succ_eq, List.range_succ, List.countP_append, Nat.cast_add, mul_add a]
    cases hbit : b.testBit n with
    | false => simpa [hbit] using ih
    | true =>
      simp only [List.countP_singleton, hbit, if_true, Bool.toNat_true, mul_one, Nat.cast_add, Nat.cast_one,
        Nat.cast_pow, Nat.cast_ofNat]
      omega

/-- From bit 64 on the terms are exact: they add up to the multiplicand times the upper 192 bits of the multiplier
(44_multiply.md R104). -/
theorem termSum_add_64 (a : Int) (b n : Nat) :
    termSum a b (64 + n) = a * (b / 2 ^ 64 % 2 ^ n : Nat) + termSum a b 64 := by
  rw [termSum, Finset.sum_range_add, ← termSum, ← termSum_mul_two_pow, add_comm, termSum]
  refine congrArg (· + _) (Finset.sum_congr rfl fun j _ => ?_)
  rw [Nat.testBit_div_two_pow, Nat.add_comm j 64, pow_add, mul_assoc]

theorem mul_eq_word (A B : Word) :
    mul A B = word (S A * (U B / 2 ^ 64 : Nat) + termSum (S A) (U B) 64) := by
  have hB := U_lt B
  rw [mul_eq_word_termSum, show 256 = 64 + 192 from rfl, termSum_add_64, Nat.mod_eq_of_lt (by omega)]

/-- Modulo 2^256 the left-shifted terms do not tell the two readings of the multiplicand apart (44_multiply.md R104). -/
theorem mul_eq_word_unsigned (A B : Word) :
    mul A B = word (U A * (U B / 2 ^ 64 : Nat) + termSum (S A) (U B) 64) := by
  simp only [mul_eq_word, word_add, word_mul, word_S, word_U]

/-- A bit of the fractional limb shifts right by its distance from bit 64 (44_multiply.md R104). -/
theorem termSum_eq_sum_ediv (a : Int) (b : Nat) :
    termSum a b 64 = ∑ j ∈ Finset.range 64, if b.testBit j then a / 2 ^ (64 - j) else 0 := by
  refine Finset.sum_congr rfl fun j hj => ?_
  rw [mul_two_pow_ediv a (Finset.mem_range.1 hj).le]

/-- Settles O38, by `mul_eq_word_unsigned`. -/
theorem mulClosedForm : Obligations.MulClosedForm := by
  refine fun s rd ra rb => exec_writes (w := mul (readReg s ra) (readReg s rb)) rfl ?_
  rw [mul_eq_word_unsigned, U_word, termSum_eq_sum_ediv]

/-! ### When MUL is the product -/

/-- 44_multiply.md R106 a. -/
theorem mul_of_integer_multiplicand {A : Word} (hA : U A % 2 ^ 64 = 0) (B : Word) :
    mul A B = word (S A / 2 ^ 64) * B := by
  have hS := S_emod_eq_U_mod A
  have hexact : S A = S A / 2 ^ 64 * 2 ^ 64 := by omega
  rw [mul_eq_word_termSum, hexact, termSum_mul_two_pow, ← hexact, Nat.mod_eq_of_lt (U_lt B), word_mul, word_U]

/-- 44_multiply.md R106 b. The multiplier may be any unsigned integer: it is read as one. -/
theorem mul_of_integer_multiplier (A : Word) {B : Word} (hB : U B % 2 ^ 64 = 0) :
    mul A B = A * BitVec.ofNat 256 (U B / 2 ^ 64) := by
  have hterms : termSum (S A) (U B) 64 = 0 := by
    rw [termSum_congr (c := 0) hB]
    simp [termSum]
  rw [mul_eq_word, hterms, add_zero, word_mul, word_S, word, BitVec.ofInt_natCast]

/-- Settles O39, by the two cases of R106. -/
theorem mulByIntegerIsExact : Obligations.MulByIntegerIsExact := by
  refine fun A B => ⟨fun hA => ?multiplicand, fun hB _ => ?multiplier⟩
  case multiplicand =>
    have hword : mul A B = word (S A / 2 ^ 64 * S B) := by
      rw [mul_of_integer_multiplicand hA, word_mul, word_S]
    rw [hword, U_word]
  case multiplier =>
    rw [mul_of_integer_multiplier A hB, U, BitVec.toNat_mul, BitVec.toNat_ofNat, Nat.mul_mod_mod]

/-! ### When it is not -/

/-- Settles O40: the multiplier's integer part loses nothing, and the `n` set bits of its fractional part less than
one unit each (`termSum_bounds`), so less than `n` in all. -/
theorem mulShortfallIsBelowFractionalBitCount : Obligations.MulShortfallIsBelowFractionalBitCount := by
  intro A B hB
  have hS : S B = U B := BitVec.toInt_eq_toNat_of_lt (by rw [U] at hB; omega)
  have hsplit : S A * S B / 2 ^ 64 = S A * (U B / 2 ^ 64 : Nat) + S A * (U B % 2 ^ 64 : Nat) / 2 ^ 64 := by
    have hparts : S B = (U B / 2 ^ 64 : Nat) * 2 ^ 64 + (U B % 2 ^ 64 : Nat) := by omega
    rw [hparts, mul_add, ← mul_assoc, add_comm, Int.add_mul_ediv_right _ _ (by decide), add_comm]
  have hcount : (List.range 64).countP (fun j => (U B).testBit j) ≤ 64 := List.countP_le_length
  obtain ⟨hlow, hhigh⟩ := termSum_bounds (S A) (U B) 64
  refine ⟨(S A * (U B % 2 ^ 64 : Nat) / 2 ^ 64 - termSum (S A) (U B) 64).toNat, by omega, ?_⟩
  rw [mul_eq_word, U_word, hsplit]
  omega

/-- Settles O41: the sign bit is one more of the upper bits and gives a term `S A * 2^191`, which differs from the right
`-(S A * 2^191)` by `S A * 2^192`, of which only the fractional limb of `A` is left modulo 2^256. -/
theorem mulNegativeMultiplierQuirk : Obligations.MulNegativeMultiplierQuirk := by
  intro A B hB
  have hlt := U_lt B
  have hrest : U (word (U B - 2 ^ 255 : Int)) = U B - 2 ^ 255 := by
    have hmod := U_word (U B - 2 ^ 255 : Int)
    omega
  have hupper : S A * (U B / 2 ^ 64 : Nat) = S A * ((U B - 2 ^ 255) / 2 ^ 64 : Nat) + S A * 2 ^ 191 := by
    rw [← mul_add]
    congr 1
    omega
  have hlower : termSum (S A) (U B) 64 = termSum (S A) (U B - 2 ^ 255) 64 := termSum_congr (by omega) _
  have hfractional := S_emod_eq_U_mod A
  rw [mul_eq_word, mul_eq_word, U_word, U_word, hrest, hupper, hlower]
  omega

/-! ### Laws -/

/-- Settles O42: zero and one are integers in both roles. -/
theorem mulZeroAndOneLaws : Obligations.MulZeroAndOneLaws := by
  refine fun A => ⟨?zeroMultiplier, ?zeroMultiplicand, ?oneMultiplier, ?oneMultiplicand⟩
  case zeroMultiplier => exact (mul_of_integer_multiplier A rfl).trans BitVec.mul_zero
  case zeroMultiplicand => exact (mul_of_integer_multiplicand rfl A).trans BitVec.zero_mul
  case oneMultiplier => exact (mul_of_integer_multiplier A rfl).trans (BitVec.mul_one A)
  case oneMultiplicand => exact (mul_of_integer_multiplicand rfl A).trans (BitVec.one_mul A)

/-- Settles O43: MUL is multiplication modulo 2^256 by one factor, in case (ii) because the sum of the multipliers does
not wrap. -/
theorem mulDistributesInTheStatedCases : Obligations.MulDistributesInTheStatedCases := by
  refine fun a b c => ⟨fun ha => ?multiplicand, fun hb hc hsum => ?multipliers, fun ha => ?multiplier⟩
  case multiplicand =>
    simp only [mul_of_integer_multiplicand ha, add_eq_add, BitVec.mul_add]
  case multipliers =>
    have hU : U (add b c) = U b + U c := (U_add b c).trans (Nat.mod_eq_of_lt hsum)
    have hinteger : U (add b c) % 2 ^ 64 = 0 := by omega
    have hquotient : U (add b c) / 2 ^ 64 = U b / 2 ^ 64 + U c / 2 ^ 64 := by omega
    rw [mul_of_integer_multiplier a hinteger, mul_of_integer_multiplier a hb, mul_of_integer_multiplier a hc, hquotient,
      add_eq_add, BitVec.ofNat_add, BitVec.mul_add]
  case multiplier =>
    simp only [mul_of_integer_multiplier _ ha, add_eq_add, BitVec.add_mul]

/-- Settles O44: -2 is an integer in both roles, as a multiplier the unsigned 2^192 - 2. -/
theorem mulIsNotCommutative : Obligations.MulIsNotCommutative :=
  ⟨(mul_of_integer_multiplier _ (by decide)).trans (by decide),
    (mul_of_integer_multiplicand (by decide) _).trans (by decide)⟩

end Sys2Proof.Machine

/-! PROOFS. The family of spec/45_shift.md: the two shifts bit by bit (`getBit_shl`, `getBit_shr`) and as readings of a
word (`U_shl`, `S_shr`), and the redirection of a signed amount; the laws follow from the bits. -/

namespace Sys2Proof.Machine

/-! ### The two shifts bit by bit -/

/-- Word bits count from the most significant one, as `getMsbD` does; past the last one it answers 0
(00_scope.md R8). -/
theorem getBit_eq_getMsbD (W : Word) (i : BitIdx) : getBit W i = W.getMsbD i := by
  rw [getBit_eq_getLsbD, BitVec.getMsbD_eq_getLsbD, decide_eq_true i.isLt, Bool.true_and]

/-- The bit `n` positions further on, or 0 if there is none (45_shift.md R109). -/
theorem getBit_shl (W : Word) (n : Nat) (i : BitIdx) : getBit (shl W n) i = W.getMsbD (i + n) := by
  rw [getBit_eq_getMsbD, shl, BitVec.getMsbD_shiftLeft]

/-- The bit `n` positions back, or the original sign bit if there is none (45_shift.md R110). -/
theorem getBit_shr (W : Word) (n : Nat) (i : BitIdx) :
    getBit (shr W n) i = if i.val < n then getBit W 0 else W.getMsbD (i - n) := by
  rw [getBit_eq_getMsbD, shr, BitVec.getMsbD_sshiftRight, decide_eq_true i.isLt, Bool.true_and,
    BitVec.msb_eq_getMsbD_zero, getBit_eq_getMsbD W 0]
  rfl

theorem getBit_shl_of_add_eq (W : Word) {n : Nat} {i j : BitIdx} (h : i.val + n = j.val) :
    getBit (shl W n) i = getBit W j := by
  rw [getBit_shl, h, getBit_eq_getMsbD]

theorem getBit_shl_of_vacated (W : Word) {n : Nat} {i : BitIdx} (h : 255 < i.val + n) :
    getBit (shl W n) i = false := by
  rw [getBit_shl, BitVec.getMsbD_of_ge _ _ h]

theorem getBit_shr_of_add_eq (W : Word) {n : Nat} {i j : BitIdx} (h : j.val + n = i.val) :
    getBit (shr W n) i = getBit W j := by
  rw [getBit_shr, if_neg (by omega), ← h, Nat.add_sub_cancel, getBit_eq_getMsbD]

theorem getBit_shr_of_vacated (W : Word) {n : Nat} {i : BitIdx} (h : i.val < n) :
    getBit (shr W n) i = getBit W 0 := by
  rw [getBit_shr, if_pos h]

/-! ### The two shifts as readings of a word -/

theorem U_shl (W : Word) (n : Nat) : U (shl W n) = U W * 2 ^ n % 2 ^ 256 := by
  rw [U, shl, BitVec.toNat_shiftLeft, Nat.shiftLeft_eq, U]

theorem S_shr (W : Word) (n : Nat) : S (shr W n) = S W / 2 ^ n := by
  rw [S, shr, BitVec.toInt_sshiftRight, Int.shiftRight_eq_div_pow, Nat.cast_pow, Nat.cast_ofNat, S]

/-- The unsigned reading is the signed one modulo 2^256 (00_scope.md R10). -/
theorem U_eq_S_emod (W : Word) : (U W : Int) = S W % 2 ^ 256 := by
  rw [← U_word, word_S]

theorem shl_zero (W : Word) : shl W 0 = W := BitVec.shiftLeft_zero W

theorem shr_zero (W : Word) : shr W 0 = W := BitVec.sshiftRight_zero

/-- Settles O45, by the left shift bit by bit and its unsigned reading. -/
theorem shiftLeftMovesEveryBit : Obligations.ShiftLeftMovesEveryBit := fun W n =>
  ⟨fun _ _ => getBit_shl_of_add_eq W, fun _ => getBit_shl_of_vacated W, U_shl W n, shl_zero W⟩

/-- Settles O46, by the right shift bit by bit and its signed reading. -/
theorem shiftRightMovesEveryBit : Obligations.ShiftRightMovesEveryBit := by
  refine fun W n => ⟨fun _ _ => getBit_shr_of_add_eq W, fun _ => getBit_shr_of_vacated W, ?_, shr_zero W⟩
  rw [U_eq_S_emod, S_shr]

/-! ### Signed amounts -/

theorem shiftLeft_natCast (W : Word) (n : Nat) : shiftLeft W n = shl W n :=
  if_pos (Int.natCast_nonneg n)

theorem shiftRight_natCast (W : Word) (n : Nat) : shiftRight W n = shr W n :=
  if_pos (Int.natCast_nonneg n)

/-- A negative amount redirects to the right shift; minus zero is zero, by which neither shift moves a bit
(45_shift.md R111). -/
theorem shiftLeft_neg_natCast (W : Word) (n : Nat) : shiftLeft W (-n) = shr W n := by
  cases n with
  | zero => exact (shl_zero W).trans (shr_zero W).symm
  | succ k => exact if_neg (by omega)

/-- A negative amount redirects to the left shift; minus zero is zero, by which neither shift moves a bit
(45_shift.md R111). -/
theorem shiftRight_neg_natCast (W : Word) (n : Nat) : shiftRight W (-n) = shl W n := by
  cases n with
  | zero => exact (shr_zero W).trans (shl_zero W).symm
  | succ k => exact if_neg (by omega)

/-- Settles O47: each command writes the shift that its amount's sign selects, whose reading is the closed form. -/
theorem shiftCommandsCloseOverSignedAmounts : Obligations.ShiftCommandsCloseOverSignedAmounts := by
  refine fun s rd ra n => ⟨exec_writes rfl ?shl, exec_writes rfl ?shlNeg, exec_writes rfl ?shr, exec_writes rfl ?shrNeg⟩
  case shl => rw [shiftLeft_natCast, U_shl]
  case shlNeg => rw [shiftLeft_neg_natCast, S_shr]
  case shr => rw [shiftRight_natCast, S_shr]
  case shrNeg => rw [shiftRight_neg_natCast, U_shl]

/-! ### Amounts of 256 and more, and shifts one after the other -/

theorem shl_shl (W : Word) (n k : Nat) : shl (shl W n) k = shl W (n + k) := (BitVec.shiftLeft_add W n k).symm

theorem shr_shr (W : Word) (n k : Nat) : shr (shr W n) k = shr W (n + k) := BitVec.sshiftRight_add.symm

/-- Every position is vacated (45_shift.md R112). -/
theorem shl_of_width_le (W : Word) {n : Nat} (h : 256 ≤ n) : shl W n = 0#256 := BitVec.shiftLeft_eq_zero h

theorem getBit_allOnes (i : BitIdx) : getBit (BitVec.allOnes 256) i = true := by
  rw [getBit_eq_getMsbD, BitVec.getMsbD_allOnes, decide_eq_true i.isLt]

/-- Every position is vacated and holds the original sign bit (45_shift.md R112). -/
theorem shr_of_width_le (W : Word) {n : Nat} (h : 256 ≤ n) :
    shr W n = if getBit W 0 = true then BitVec.allOnes 256 else 0#256 := by
  refine word_ext fun i => ?_
  rw [getBit_shr_of_vacated W (i.isLt.trans_le h)]
  cases hsign : getBit W 0 with
  | true => rw [if_pos rfl, getBit_allOnes]
  | false => rw [if_neg Bool.false_ne_true]; exact (getBit_zeroWord i).symm

/-- Settles O48, by composition in each direction and the word of vacated positions alone. -/
theorem overWideAndComposedShifts : Obligations.OverWideAndComposedShifts := fun W n k =>
  ⟨shl_shl W n k, shr_shr W n k, fun h => ⟨shl_of_width_le W h, shr_of_width_le W h⟩⟩

/-! ### A shift and its opposite -/

/-- Left and back: the bits from index `s` on are as they were, and bit `s`, the sign bit in between, fills those before
it (45_shift.md R116). -/
theorem getBit_shr_shl (W : Word) (s i : BitIdx) :
    getBit (shr (shl W s) s) i = if i < s then getBit W s else getBit W i := by
  split
  case isTrue h => rw [getBit_shr_of_vacated _ h, getBit_shl_of_add_eq W (Nat.zero_add s.val)]
  case isFalse h =>
    have hback : (i.val - s.val) + s.val = i.val := Nat.sub_add_cancel (Nat.not_lt.1 h)
    rw [getBit_shr_of_add_eq (j := ⟨i.val - s.val, by omega⟩) _ hback, getBit_shl_of_add_eq W hback]

/-- Right and back: the last `s` bits are 0, the others are as they were (45_shift.md R116). -/
theorem getBit_shl_shr (W : Word) (s : Nat) (i : BitIdx) :
    getBit (shl (shr W s) s) i = if 256 - s ≤ i.val then false else getBit W i := by
  split
  case isTrue h => rw [getBit_shl_of_vacated _ (by omega)]
  case isFalse h =>
    rw [getBit_shl_of_add_eq (j := ⟨i.val + s, by omega⟩) _ rfl, getBit_shr_of_add_eq W rfl]

theorem shr_shl_eq_self_iff (W : Word) (s : BitIdx) :
    shr (shl W s) s = W ↔ ∀ i : BitIdx, i.val ≤ s.val → getBit W i = getBit W 0 := by
  constructor
  · intro h
    have hall (i : BitIdx) (hi : i ≤ s) : getBit W i = getBit W s := by
      rcases hi.lt_or_eq with hlt | rfl
      · calc getBit W i = getBit (shr (shl W s) s) i := by rw [h]
          _ = getBit W s := by rw [getBit_shr_shl, if_pos hlt]
      · rfl
    exact fun i hi => (hall i hi).trans (hall 0 (Fin.zero_le s)).symm
  · refine fun hall => word_ext fun i => ?_
    rw [getBit_shr_shl]
    split
    case isTrue hi => rw [hall s le_rfl, hall i hi.le]
    case isFalse => rfl

theorem shl_shr_eq_self_iff (W : Word) (s : Nat) :
    shl (shr W s) s = W ↔ ∀ i : BitIdx, 256 - s ≤ i.val → getBit W i = false := by
  constructor
  · intro h i hi
    rw [← h, getBit_shl_shr, if_pos hi]
  · refine fun hzero => word_ext fun i => ?_
    rw [getBit_shl_shr]
    split
    case isTrue hi => exact (hzero i hi).symm
    case isFalse => rfl

/-- Settles O49, by what the two shifts in a row leave in each bit. -/
theorem shiftRoundTripConditions : Obligations.ShiftRoundTripConditions := fun a s hs =>
  ⟨shr_shl_eq_self_iff a ⟨s, Nat.lt_succ_of_le hs⟩, shl_shr_eq_self_iff a s⟩

end Sys2Proof.Machine

/-! PROOFS. The family of spec/46_conversion.md: the conversions as truncations modulo 2^64 and 2^32
(`toInt64Bits_eq_ofInt_tdiv`, `toInt32Bits_eq_ofInt_tdiv`), what the port carries of them (`toNat_dout_ofInt`,
`exec_delivers`), and the rendering, whose plain form is one field of 256 characters (`render_plain_eq_fieldText`)
that the literal walk reads back (`parseLiteral_render`). -/

namespace Sys2Proof.Machine

/-! ### Integer conversions -/

/-- The 32-bit converter truncates toward zero, modulo 2^32: it keeps the low half of a 64-bit result
(46_conversion.md R118, R123). -/
theorem toInt32Bits_eq_ofInt_tdiv (W : Word) : toInt32Bits W = BitVec.ofInt 32 ((S W).tdiv (2 ^ 64)) := by
  rw [toInt32Bits, toInt64Bits_eq_ofInt_tdiv]
  generalize (S W).tdiv (2 ^ 64) = q
  refine BitVec.eq_of_toNat_eq ?_
  rw [BitVec.extractLsb'_toNat, Nat.shiftRight_zero, BitVec.toNat_ofInt, BitVec.toNat_ofInt]
  omega

/-- An integer's low `n` bits, read as unsigned (00_scope.md R10). -/
theorem toNat_ofInt_eq_emod (n : Nat) (q : Int) : ((BitVec.ofInt n q).toNat : Int) = q % 2 ^ n := by
  have hnonneg : 0 ≤ q % 2 ^ n := Int.emod_nonneg q (by positivity)
  rw [BitVec.toNat_ofInt, Nat.cast_pow, Nat.cast_ofNat, Int.toNat_of_nonneg hnonneg]

/-- In the data port the bits above a result are zeros, so the port reads as the result (20_memory.md R34). -/
theorem toNat_dout_ofInt {n : Nat} (hn : n ≤ 256) (q : Int) :
    (((BitVec.ofInt n q).setWidth 256).toNat : Int) = q % 2 ^ n := by
  rw [BitVec.toNat_setWidth_of_le hn, toNat_ofInt_eq_emod]

/-- Settles O50: two commands share each converter, and the port shows its result modulo 2^32 or 2^64
(`toNat_dout_ofInt`). -/
theorem conversionsTruncateTowardZero : Obligations.ConversionsTruncateTowardZero := by
  intro s ra
  obtain ⟨t, h32, honly32⟩ := finishOutput_next s ((toInt32Bits (readReg s ra)).setWidth 256) []
  obtain ⟨u, h64, honly64⟩ := finishOutput_next s ((toInt64Bits (readReg s ra)).setWidth 256) []
  refine ⟨t, t, u, u, _, _, h32, honly32, h32, honly32, h64, honly64, h64, honly64, ?value32, ?value64⟩
  case value32 => rw [toInt32Bits_eq_ofInt_tdiv, toNat_dout_ofInt (by decide)]
  case value64 => rw [toInt64Bits_eq_ofInt_tdiv, toNat_dout_ofInt (by decide)]

/-- A command that outputs an `n`-bit result delivers what the host reads in those bits (20_memory.md R34). -/
theorem exec_delivers {i : Instr} {s : State} {n : Nat} {x : BitVec n} {q : Int} (hn : n ≤ 256)
    (hexec : exec i s = finishOutput s (x.setWidth 256) []) (read : BitVec n → Int) (hread : read x = q) :
    ∃ t, exec i s = .next t ∧ read (t.rsp.dout.extractLsb' 0 n) = q := by
  obtain ⟨t, ht, -, hrsp, -⟩ := finishOutput_next s (x.setWidth 256) []
  refine ⟨t, hexec.trans ht, ?_⟩
  rw [hrsp, extractLsb'_setWidth_port hn, hread]

theorem toNat_ofInt_eq_self {n : Nat} {q : Int} (hlow : 0 ≤ q) (hhigh : q < 2 ^ n) :
    ((BitVec.ofInt n q).toNat : Int) = q := by
  rw [toNat_ofInt_eq_emod, Int.emod_eq_of_lt hlow hhigh]

/-- Settles O51: in the target's range an integer is what its low bits read as. -/
theorem conversionsDeliverInRangeValues : Obligations.ConversionsDeliverInRangeValues := by
  rintro s ra q rfl
  have h32 := toInt32Bits_eq_ofInt_tdiv (readReg s ra)
  have h64 := toInt64Bits_eq_ofInt_tdiv (readReg s ra)
  refine ⟨fun hlow hhigh => ?cvti32, fun hlow hhigh => ?cvtu32, fun hlow hhigh => ?cvti64, fun hlow hhigh => ?cvtu64⟩
  case cvti32 =>
    exact exec_delivers (by decide) rfl BitVec.toInt (h32 ▸ BitVec.toInt_ofInt_eq_self (by decide) hlow hhigh)
  case cvtu32 => exact exec_delivers (by decide) rfl (fun b => b.toNat) (h32 ▸ toNat_ofInt_eq_self hlow hhigh)
  case cvti64 =>
    exact exec_delivers (by decide) rfl BitVec.toInt (h64 ▸ BitVec.toInt_ofInt_eq_self (by decide) hlow hhigh)
  case cvtu64 => exact exec_delivers (by decide) rfl (fun b => b.toNat) (h64 ▸ toNat_ofInt_eq_self hlow hhigh)

/-! ### The canonical rendering -/

/-- Two fields one after the other are one field. -/
theorem fieldText_append (W : Word) (lo m n : Nat) (h : lo + m + n ≤ 256) :
    fieldText W lo m (by omega) ++ fieldText W (lo + m) n h = fieldText W lo (m + n) (by omega) := by
  simp only [fieldText, List.ofFn_add, Fin.val_castLE, Fin.val_natAdd, Nat.add_assoc]

/-- Without spaces the three fields are the word bits in storage order (46_conversion.md R124). -/
theorem render_plain_eq_fieldText (W : Word) : render W false = fieldText W 0 256 (by decide) := by
  have hsignInt := fieldText_append W 0 1 191 (by decide)
  have hall := fieldText_append W 0 192 64 (by decide)
  exact (congrArg (· ++ fieldText W 192 64 (by decide)) hsignInt).trans hall

/-- With spaces one stands at each field boundary (46_conversion.md R124, 92_eei_decisions.md D17). -/
theorem render_spaced_eq (W : Word) :
    render W true = fieldText W 0 1 (by decide) ++ Config.chSpace :: (fieldText W 1 191 (by decide) ++
      Config.chSpace :: fieldText W 192 64 (by decide)) := by
  simp only [render, if_true, List.append_assoc, List.cons_append, List.nil_append]

/-- Character `i` of the plain rendering is word bit `i` (46_conversion.md R124). -/
theorem render_plain_getElem? (W : Word) (i : BitIdx) : (render W false)[i.val]? = some (bitChar (getBit W i)) := by
  rw [render_plain_eq_fieldText, fieldText_getElem? W 0 256 _ i.val i.isLt]
  simp only [Nat.zero_add]

/-- A field is a stretch of the plain rendering. -/
theorem fieldText_getElem?_eq_render (W : Word) (lo n : Nat) (h : lo + n ≤ 256) {k : Nat} (hk : k < n) :
    (fieldText W lo n h)[k]? = (render W false)[lo + k]? :=
  (fieldText_getElem? W lo n h k hk).trans (render_plain_getElem? W ⟨lo + k, by omega⟩).symm

/-- The characters of the integer field stand one place further on. -/
theorem render_spaced_getElem?_int (W : Word) {k : Nat} (hlow : 1 ≤ k) (hhigh : k ≤ 191) :
    (render W true)[k + 1]? = (render W false)[k]? := by
  obtain ⟨j, rfl⟩ := Nat.exists_eq_add_of_le' hlow
  rw [render_spaced_eq, List.getElem?_append_right (by rw [fieldText_length]; omega), fieldText_length,
    Nat.add_sub_cancel, List.getElem?_cons_succ, List.getElem?_append_left (by rw [fieldText_length]; omega),
    fieldText_getElem?_eq_render W 1 191 _ (by omega), Nat.add_comm]

/-- The characters of the fractional field stand two places further on. -/
theorem render_spaced_getElem?_frac (W : Word) {k : Nat} (hlow : 192 ≤ k) (hhigh : k ≤ 255) :
    (render W true)[k + 2]? = (render W false)[k]? := by
  obtain ⟨j, rfl⟩ := Nat.exists_eq_add_of_le' hlow
  rw [render_spaced_eq, List.getElem?_append_right (by rw [fieldText_length]; omega), fieldText_length,
    show j + 192 + 2 - 1 = j + 192 + 1 by omega, List.getElem?_cons_succ,
    List.getElem?_append_right (by rw [fieldText_length]; omega), fieldText_length,
    show j + 192 - 191 = j + 1 by omega, List.getElem?_cons_succ,
    fieldText_getElem?_eq_render W 192 64 _ (by omega), Nat.add_comm]

/-- Settles O53: the characters of the sign and of the two spaces stand at fixed places; the two longer fields are moved
by the spaces before them. -/
theorem renderGivesTheCanonicalText : Obligations.RenderGivesTheCanonicalText := by
  intro s ra
  obtain ⟨t, ht, honlyPlain⟩ := finishOutput_next s 0#256 (render (readReg s ra) false)
  obtain ⟨u, hu, honlySpaced⟩ := finishOutput_next s 0#256 (render (readReg s ra) true)
  exact ⟨t, u, _, _, ht, honlyPlain, hu, honlySpaced, render_plain_length _, render_spaced_length _,
    render_plain_getElem? _, rfl, rfl, fun _ => render_spaced_getElem?_int _, rfl,
    fun _ => render_spaced_getElem?_frac _⟩

/-! ### Reading a rendering back -/

theorem bitChar_eq_chOne_iff (b : Bool) : bitChar b = Config.chOne ↔ b = true := by
  cases b <;> decide

/-- The literal walk reads the plain rendering back: character `255 - i` from the end is character `i`
(46_conversion.md R125, 41_construction.md R74). -/
theorem parseLiteral_render (W : Word) :
    parseLiteral (Config.chZero :: Config.chB :: render W false) = W := word_ext fun i => by
  have hplace : 256 - 1 - (255 - i.val) = i.val := by omega
  rw [parseLiteral_of_leadBytes, getBit_placeDigits, if_pos (Nat.zero_le _), getBit_zeroWord, digitBit_false,
    Nat.sub_zero, List.getElem?_reverse (by rw [render_plain_length]; omega), render_plain_length, hplace,
    render_plain_getElem?]
  simp only [Option.some.injEq, bitChar_eq_chOne_iff, Bool.decide_eq_true]

/-- Settles O29: LDLIT writes what the walk reads in the text RENDER gave (`parseLiteral_render`). -/
theorem literalOfRenderingIsTheWord : Obligations.LiteralOfRenderingIsTheWord := by
  intro s u ra rd
  obtain ⟨t, ht, -, hrsp, -⟩ := finishOutput_next s 0#256 (render (readReg s ra) false)
  have htext : t.rsp.tout = render (readReg s ra) false := congrArg Response.tout hrsp
  refine ⟨t, ht, ?_⟩
  rw [htext]
  obtain ⟨u', hu', hword, -⟩ := finishWrite_next
    { u with port := { u.port with tin := Config.chZero :: Config.chB :: render (readReg s ra) false } } rd
    (parseLiteral (Config.chZero :: Config.chB :: render (readReg s ra) false))
  exact ⟨u', hu', hword.trans (parseLiteral_render _)⟩

end Sys2Proof.Machine

/-! PROOFS. The families of spec/60_exceptions.md and spec/70_reset_and_hazards.md: the forms a response can take
(`responseOk_of_ok`, `responseOk_illegal`, `responseOk_afterReset`), one of which every step leaves on the port; what
an illegal command leaves for the next one, and what reset and idling do. -/

namespace Sys2Proof.Machine

/-! ### The characters of a rendering -/

/-- The characters of a rendering: `'0'`, `'1'` and the space (46_conversion.md R124). -/
abbrev IsTextChar (ch : Byte) : Prop := ch = Config.chZero ∨ ch = Config.chOne ∨ ch = Config.chSpace

theorem isTextChar_bitChar (b : Bool) : IsTextChar (bitChar b) := by
  cases b with
  | false => exact .inl rfl
  | true => exact .inr (.inl rfl)

theorem isTextChar_of_mem_fieldText {W : Word} {lo n : Nat} {h : lo + n ≤ 256} {ch : Byte}
    (hmem : ch ∈ fieldText W lo n h) : IsTextChar ch := by
  obtain ⟨_, rfl⟩ := List.mem_ofFn.1 hmem
  exact isTextChar_bitChar _

/-- A character of a rendering is a space between two fields or stands in a field (46_conversion.md R124). -/
theorem isTextChar_of_mem_render {W : Word} {spaced : Bool} {ch : Byte} (hmem : ch ∈ render W spaced) :
    IsTextChar ch := by
  cases spaced with
  | false =>
    rw [render_plain_eq_fieldText] at hmem
    exact isTextChar_of_mem_fieldText hmem
  | true =>
    rw [render_spaced_eq] at hmem
    simp only [List.mem_append, List.mem_cons] at hmem
    rcases hmem with hfield | rfl | hfield | rfl | hfield
    · exact isTextChar_of_mem_fieldText hfield
    · exact .inr (.inr rfl)
    · exact isTextChar_of_mem_fieldText hfield
    · exact .inr (.inr rfl)
    · exact isTextChar_of_mem_fieldText hfield

/-- A text as long as one of the two renderings (20_memory.md R36), of their characters. -/
abbrev IsLegalText (x : List Byte) : Prop := (x.length = 256 ∨ x.length = 258) ∧ ∀ ch ∈ x, IsTextChar ch

theorem isLegalText_render (W : Word) (spaced : Bool) : IsLegalText (render W spaced) := by
  refine ⟨?_, fun _ => isTextChar_of_mem_render⟩
  cases spaced with
  | false => exact .inl (render_plain_length W)
  | true => exact .inr (render_spaced_length W)

/-! ### The form of the response port -/

/-- Beside a valid OK response only the text has something to check. -/
theorem responseOk_of_ok {r : Response} (hvalid : r.valid = true) (hstatus : r.status = statusOk)
    (htext : r.tout ≠ [] → r.dout = 0#256 ∧ IsLegalText r.tout) : ResponseOk r := by
  refine ⟨.inl hstatus, ?_, fun _ => hstatus, htext⟩
  simp [hvalid, hstatus]

/-- 60_exceptions.md R131. -/
theorem responseOk_illegal : ResponseOk { valid := true, status := statusIllegal, dout := 0#256, tout := [] } :=
  ⟨.inr rfl, fun _ => ⟨rfl, rfl⟩, nofun, fun hne => absurd rfl hne⟩

/-- 70_reset_and_hazards.md R144. -/
theorem responseOk_afterReset : ResponseOk Response.afterReset :=
  ⟨.inl rfl, fun _ => ⟨rfl, rfl⟩, fun _ => rfl, fun hne => absurd rfl hne⟩

/-- A text comes from RENDER alone, and with `dout = 0` (20_memory.md R34, R36). -/
theorem exec_text_legal {i : Instr} {s t : State} (h : exec i s = .next t) (hne : t.rsp.tout ≠ []) :
    t.rsp.dout = 0#256 ∧ IsLegalText t.rsp.tout := by
  obtain ⟨u, hu, htext⟩ := exec_tout i s
  obtain rfl : t = u := Host.Outcome.next.inj (h.symm.trans hu)
  cases i with
  | render ra spaced =>
    obtain ⟨-, hrsp, -, -⟩ := answeredOnly_of_finishOutput h
    exact ⟨congrArg Response.dout hrsp, htext ▸ isLegalText_render (readReg s ra) spaced⟩
  | _ => exact absurd htext hne

/-- Every command leaves a response of the form (60_exceptions.md R130). -/
theorem exec_responseOk {i : Instr} {s t : State} (h : exec i s = .next t) : ResponseOk t.rsp := by
  obtain ⟨u, hu, -, hvalid, hstatus, -⟩ := everyCommandCompletesAndWritesOnlyItsDestination i s
  obtain rfl : t = u := Host.Outcome.next.inj (h.symm.trans hu)
  exact responseOk_of_ok hvalid hstatus (exec_text_legal h)

/-- The port leaves a response of the form, with a command or an illegal word on it. -/
theorem runPort_responseOk {s t : State} (h : runPort s = .next t) : ResponseOk t.rsp := by
  cases hdec : decode s.port.cmd with
  | none =>
    simp only [runPort, hdec] at h
    cases h
    exact responseOk_illegal
  | some i =>
    simp only [runPort, hdec] at h
    exact exec_responseOk h

/-- Settles O14, by the host's next event: with none the port is held, a reset gives it the reset values, and a command
leaves a response that has the form whatever stood there before. -/
theorem stepKeepsResponseForm : Obligations.StepKeepsResponseForm := by
  intro s t hform hstep
  match hpending : s.pending with
  | [] =>
    obtain rfl : s = t := Host.Outcome.next.inj ((step_idle hpending).symm.trans hstep)
    exact hform
  | .reset a :: rest =>
    obtain rfl : applyReset a rest = t := Host.Outcome.next.inj ((step_reset hpending).symm.trans hstep)
    exact responseOk_afterReset
  | .command c :: rest => exact runPort_responseOk ((step_command hpending).symm.trans hstep)

/-- Settles O15: the response port of the reset state is `Response.afterReset`. -/
theorem resetHasResponseForm : Obligations.ResetHasResponseForm := responseOk_afterReset

/-! ### After an illegal command -/

/-- The step of a command reads the registers alone of what earlier commands left (20_memory.md R38). -/
theorem step_command_congr {s t : State} {c : Command} {rest : List HostEvent} (hs : s.pending = .command c :: rest)
    (ht : t.pending = .command c :: rest) (hregs : s.regs = t.regs) : step s = step t := by
  rw [step_command_eq_transact hs, step_command_eq_transact ht, hregs]

/-- Settles O8: the illegal command leaves the registers as they were, and the step after it reads nothing else that it
could have left (`step_command_congr`). -/
theorem illegalCommandIsNotSticky : Obligations.IllegalCommandIsNotSticky := by
  intro s bad c rest hpending hillegal
  have hdec : decode bad.cmd = none := (decoderRefusesExactlyIllegalWords bad.cmd).2 hillegal
  have hfirst : step s = .next (raiseIllegal (acceptCommand s bad (.command c :: rest))) :=
    step_of_decode_none hpending hdec
  have hsecond : step (raiseIllegal (acceptCommand s bad (.command c :: rest))) =
      step { s with pending := .command c :: rest } := step_command_congr rfl rfl rfl
  exact (run_of_next hfirst).trans ((run_one _).trans hsecond)

/-! ### Reset and idling -/

/-- 70_reset_and_hazards.md R144. -/
@[simp] theorem readReg_applyReset (a : Option Command) (rest : List HostEvent) (r : Reg) :
    readReg (applyReset a rest) r = zeroWord :=
  readReg_reset r

/-- Settles O9: the step is `applyReset`, whatever command it abandons. -/
theorem resetClearsRegistersAndResponse : Obligations.ResetClearsRegistersAndResponse :=
  fun _ a rest hpending => ⟨applyReset a rest, step_reset hpending, readReg_applyReset a rest, applyReset_rsp a rest⟩

/-- Settles O11: it is `step_idle`. -/
theorem idleHoldsTheState : Obligations.IdleHoldsTheState := fun _ hpending => step_idle hpending

end Sys2Proof.Machine
